-- ==== Sys2Proof/Word.lean ====
section
/-! DEFINITION. The value types of the core (00_scope.md R6): bytes, 32-bit words, the 64-bit length, and the
name of an engine. -/

namespace Sys2Proof

/-- 8 bits, an unsigned value 0 to 255 (00_scope.md R6). -/
abbrev Byte := BitVec 8

/-- 32 bits, an unsigned value 0 to 2^32 - 1 (00_scope.md R6). -/
abbrev Word := BitVec 32

/-- The width of `totalBitLength` (10_state.md R19). -/
abbrev DWord := BitVec 64

/-- Which of the two engines a command addresses (30_encoding.md R48). -/
inductive Algorithm where
  | md2
  | md4
  deriving DecidableEq, Repr

end Sys2Proof
end

