-- ==== Sys2Proof/Machine/Constants.lean ====
section
/-! DEFINITION. The constants of the core: the parameters of 00_scope.md R5, the MD2 substitution table
(41_md2_engine.md R80) and the MD4 words, orders and amounts (42_md4_engine.md R106 to R109, 10_state.md R16). -/

namespace Sys2Proof.Machine

/-- `blockSize` in bytes: 16 for MD2, 64 for MD4 (00_scope.md R5, 10_state.md R21). -/
def blockSize : Algorithm → Nat
  | .md2 => 16
  | .md4 => 64

/-- `digestSizeBits`: 128 for both (00_scope.md R5, 10_state.md R21). -/
def digestSizeBits : Algorithm → Nat
  | .md2 => 128
  | .md4 => 128

/-- `DLEN`, the digest's length in bytes (00_scope.md R5). -/
def digestLength : Nat := 16

/-! ### The MD2 substitution table (R80) -/

/-- Rows 00 to 70 of R80's table, entries `S[r + 0]` to `S[r + 15]` of each. -/
def sTableLow : List (List Nat) :=
  [ [0x29, 0x2e, 0x43, 0xc9, 0xa2, 0xd8, 0x7c, 0x01, 0x3d, 0x36, 0x54, 0xa1, 0xec, 0xf0, 0x06, 0x13],
    [0x62, 0xa7, 0x05, 0xf3, 0xc0, 0xc7, 0x73, 0x8c, 0x98, 0x93, 0x2b, 0xd9, 0xbc, 0x4c, 0x82, 0xca],
    [0x1e, 0x9b, 0x57, 0x3c, 0xfd, 0xd4, 0xe0, 0x16, 0x67, 0x42, 0x6f, 0x18, 0x8a, 0x17, 0xe5, 0x12],
    [0xbe, 0x4e, 0xc4, 0xd6, 0xda, 0x9e, 0xde, 0x49, 0xa0, 0xfb, 0xf5, 0x8e, 0xbb, 0x2f, 0xee, 0x7a],
    [0xa9, 0x68, 0x79, 0x91, 0x15, 0xb2, 0x07, 0x3f, 0x94, 0xc2, 0x10, 0x89, 0x0b, 0x22, 0x5f, 0x21],
    [0x80, 0x7f, 0x5d, 0x9a, 0x5a, 0x90, 0x32, 0x27, 0x35, 0x3e, 0xcc, 0xe7, 0xbf, 0xf7, 0x97, 0x03],
    [0xff, 0x19, 0x30, 0xb3, 0x48, 0xa5, 0xb5, 0xd1, 0xd7, 0x5e, 0x92, 0x2a, 0xac, 0x56, 0xaa, 0xc6],
    [0x4f, 0xb8, 0x38, 0xd2, 0x96, 0xa4, 0x7d, 0xb6, 0x76, 0xfc, 0x6b, 0xe2, 0x9c, 0x74, 0x04, 0xf1] ]

/-- Rows 80 to f0 of R80's table. -/
def sTableHigh : List (List Nat) :=
  [ [0x45, 0x9d, 0x70, 0x59, 0x64, 0x71, 0x87, 0x20, 0x86, 0x5b, 0xcf, 0x65, 0xe6, 0x2d, 0xa8, 0x02],
    [0x1b, 0x60, 0x25, 0xad, 0xae, 0xb0, 0xb9, 0xf6, 0x1c, 0x46, 0x61, 0x69, 0x34, 0x40, 0x7e, 0x0f],
    [0x55, 0x47, 0xa3, 0x23, 0xdd, 0x51, 0xaf, 0x3a, 0xc3, 0x5c, 0xf9, 0xce, 0xba, 0xc5, 0xea, 0x26],
    [0x2c, 0x53, 0x0d, 0x6e, 0x85, 0x28, 0x84, 0x09, 0xd3, 0xdf, 0xcd, 0xf4, 0x41, 0x81, 0x4d, 0x52],
    [0x6a, 0xdc, 0x37, 0xc8, 0x6c, 0xc1, 0xab, 0xfa, 0x24, 0xe1, 0x7b, 0x08, 0x0c, 0xbd, 0xb1, 0x4a],
    [0x78, 0x88, 0x95, 0x8b, 0xe3, 0x63, 0xe8, 0x6d, 0xe9, 0xcb, 0xd5, 0xfe, 0x3b, 0x00, 0x1d, 0x39],
    [0xf2, 0xef, 0xb7, 0x0e, 0x66, 0x58, 0xd0, 0xe4, 0xa6, 0x77, 0x72, 0xf8, 0xeb, 0x75, 0x4b, 0x0a],
    [0x31, 0x44, 0x50, 0xb4, 0x8f, 0xed, 0x1f, 0x1a, 0xdb, 0x99, 0x8d, 0x33, 0x9f, 0x11, 0x83, 0x14] ]

/-- All sixteen rows of R80's table. -/
def sTable : List (List Nat) := sTableLow ++ sTableHigh

/-- `S[t]`, entry `t` of the ROM (R80, 20_memory.md R32). -/
def sBox (t : Byte) : Byte :=
  BitVec.ofNat 8 ((sTable.getD (t.toNat / 16) []).getD (t.toNat % 16) 0)

/-! ### MD4 (42_md4_engine.md) -/

/-- The four initial words, `words[0]` first (10_state.md R16). -/
def md4InitialWords : Vector Word 4 := #v[0x67452301, 0xEFCDAB89, 0x98BADCFE, 0x10325476]

/-- The additive constant of round `r` = 1, 2, 3: none, `0x5A827999`, `0x6ED9EBA1` (R106). -/
def md4Additive : Nat → Word
  | 1 => 0
  | 2 => 0x5A827999
  | 3 => 0x6ED9EBA1
  | _ => 0

/-- The word index `k` of position `i` in round `r` (R107, R108, R109). -/
def md4WordOrder : Nat → List Nat
  | 1 => [0, 1, 2, 3, 4, 5, 6, 7, 8, 9, 10, 11, 12, 13, 14, 15]
  | 2 => [0, 4, 8, 12, 1, 5, 9, 13, 2, 6, 10, 14, 3, 7, 11, 15]
  | 3 => [0, 8, 4, 12, 2, 10, 6, 14, 1, 9, 5, 13, 3, 11, 7, 15]
  | _ => []

/-- The rotation amount of round `r` for `i mod 4` = 0, 1, 2, 3 (R107, R108, R109). -/
def md4Rotation : Nat → List Nat
  | 1 => [3, 7, 11, 19]
  | 2 => [3, 5, 9, 13]
  | 3 => [3, 9, 11, 15]
  | _ => []

end Sys2Proof.Machine
end

