-- ==== Sys2Proof/Machine/State.lean ====
section
/-! DEFINITION. The state of the machine as plain data (10_state.md): the two engines, the two streams of the
command port with the words still to come, and the counters of the free values. -/

namespace Sys2Proof.Machine

/-- The lifecycle state of an engine (10_state.md R15, R20; its 2-bit code is `Phase.code`). -/
inductive Phase where
  | absorbing
  | finalized
  | faulted
  deriving DecidableEq, Repr

/-- The statuses a response can carry (30_encoding.md R54; their 8-bit codes are `Status.code`). -/
inductive Status where
  | ok
  | insufficientBuffer
  | invalidState
  | illegalCommand
  | finalized
  deriving DecidableEq, Repr

/-- What a response carries beside its status (30_encoding.md R53): nothing, digest bytes, byte 0 first, or one
32-bit unsigned number. -/
inductive ResponseData where
  | none
  | bytes (data : List Byte)
  | number (value : Word)
  deriving DecidableEq, Repr

/-- The response to one command (30_encoding.md R53). -/
structure Response where
  status : Status
  data : ResponseData
  deriving DecidableEq, Repr

/-- The state of the MD2 engine `E2` (10_state.md R11 to R15). -/
structure Md2Engine where
  /-- `E2.checksum[0..15]` (R11). -/
  checksum : Vector Byte 16
  /-- `E2.transformBuffer[0..47]`, `X` (R12; layout 20_memory.md R31). -/
  transformBuffer : Vector Byte 48
  /-- `E2.pendingBlock[0..15]` (R13). -/
  pendingBlock : Vector Byte 16
  /-- `E2.pendingLength` (R14), a 5-bit counter as a natural number (decision D21, log 7). -/
  pendingLength : Nat
  /-- `E2.phase` (R15). -/
  phase : Phase
  deriving DecidableEq, Repr

/-- The state of the MD4 engine `E4` (10_state.md R16 to R20). -/
structure Md4Engine where
  /-- `E4.words[0..3]` (R16). -/
  words : Vector Word 4
  /-- `E4.pendingBlock[0..63]` (R17). -/
  pendingBlock : Vector Byte 64
  /-- `E4.pendingLength` (R18), a 7-bit counter as a natural number (decision D21, log 7). -/
  pendingLength : Nat
  /-- `E4.totalBitLength` (R19). -/
  totalBitLength : DWord
  /-- `E4.phase` (R20). -/
  phase : Phase
  deriving DecidableEq, Repr

/-- Everything a step reads or writes. The core itself is `e2` and `e4` and nothing else (10_state.md R10); the
other fields are the command port, which lies outside the core (R26), and the model's own counters. -/
structure State where
  /-- The MD2 engine. -/
  e2 : Md2Engine
  /-- The MD4 engine. -/
  e4 : Md4Engine
  /-- The command words the host has yet to hand over, in the order it issues them (30_encoding.md R45, log 1). -/
  commandWords : List Word
  /-- The payload bytes still to be taken, in order (20_memory.md R33, log 1). -/
  payloadStream : List Byte
  /-- The responses given so far, oldest first (20_memory.md R34, log 4). -/
  responses : List Response
  /-- How many unspecified bytes `DIGEST.MD2` has drawn: the model's own counter (log 5). -/
  draws2 : Nat
  /-- How many unspecified bytes `DIGEST.MD4` has drawn: the model's own counter (log 5). -/
  draws4 : Nat
  deriving DecidableEq, Repr

/-- The reset values of `E2` (10_state.md R29). -/
def Md2Engine.reset : Md2Engine :=
  { checksum := Vector.replicate 16 0
    transformBuffer := Vector.replicate 48 0
    pendingBlock := Vector.replicate 16 0
    pendingLength := 0
    phase := .absorbing }

/-- The reset values of `E4` (10_state.md R29). -/
def Md4Engine.reset : Md4Engine :=
  { words := md4InitialWords
    pendingBlock := Vector.replicate 64 0
    pendingLength := 0
    totalBitLength := 0
    phase := .absorbing }

/-- The machine after power-on reset (70_reset_and_hazards.md R145): both engines as R29 lists them, nothing on the
command port (log 1), no unspecified byte drawn yet (log 5). -/
def State.reset : State :=
  { e2 := Md2Engine.reset
    e4 := Md4Engine.reset
    commandWords := []
    payloadStream := []
    responses := []
    draws2 := 0
    draws4 := 0 }

/-- Why the machine stops. There is no such reason: a command that cannot be carried out ends with an error status
in its response and the machine goes on (60_exceptions.md R125, R133), so this type has no constructor. -/
inductive Fault where
  deriving DecidableEq, Repr

/-- Why an instruction has no meaning. -/
inductive Refusal where
  /-- Raised by an arm of `exec` whose instruction has no meaning yet; no arm of this model raises it. Safe: the
  model stops where the hardware goes on. -/
  | notModelled (mnemonic : String)
  deriving DecidableEq, Repr

end Sys2Proof.Machine
end

