-- ==== Sys2Proof/Machine/Ops.lean ====
section
/-! DEFINITION. The shared operations: access to the storage spaces, rotation, the fields the two engines have in
common, responding, and raising an error (60_exceptions.md R133). -/

namespace Sys2Proof.Machine

/-! ### Storage spaces (20_memory.md R30, R40; 00_scope.md R7) -/

/-- `MemRead(A + i, 1)`, the element at index `i`. Every index the rules compute is in range (R30); outside it
the read gives 0, which no command ever asks for (log 9). -/
def arrayRead {w n : Nat} (a : Vector (BitVec w) n) (i : Nat) : BitVec w := a.getD i 0

/-- `MemWrite(A + i, 1, v)`, writing the element at index `i`. Outside the range nothing is written, which no
command ever asks for (log 9). -/
def arrayWrite {w n : Nat} (a : Vector (BitVec w) n) (i : Nat) (v : BitVec w) : Vector (BitVec w) n :=
  a.setIfInBounds i v

/-- Writes `f i` at index `i` for `i = start, start + 1, ...`, `count` of them in that order: the rules' loops
`for i in a .. b: A[i] <- f(i)` whose right side does not read `A`. -/
def arrayFill {w n : Nat} (a : Vector (BitVec w) n) (start count : Nat) (f : Nat → BitVec w) :
    Vector (BitVec w) n :=
  (List.range' start count).foldl (fun acc i => arrayWrite acc i (f i)) a

/-- `rol32(v, s)`: `((v << s) OR (v >> (32 - s))) mod 2^32`, for `1 <= s <= 31` (00_scope.md R6). -/
def rol32 (v : Word) (s : Nat) : Word := (v <<< s) ||| (v >>> (32 - s))

/-! ### What the two engines have in common (40_interface.md) -/

/-- `E.phase` of the engine a command addresses. -/
def phaseOf (alg : Algorithm) (s : State) : Phase :=
  match alg with
  | .md2 => s.e2.phase
  | .md4 => s.e4.phase

/-- `E.pendingLength` of the engine a command addresses. -/
def pendingLengthOf (alg : Algorithm) (s : State) : Nat :=
  match alg with
  | .md2 => s.e2.pendingLength
  | .md4 => s.e4.pendingLength

/-- `E.phase <- p`, and nothing else. -/
def setPhase (alg : Algorithm) (p : Phase) (s : State) : State :=
  match alg with
  | .md2 => { s with e2 := { s.e2 with phase := p } }
  | .md4 => { s with e4 := { s.e4 with phase := p } }

/-- `respond(status, data)`: the command ends with this response, the next of the response stream (00_scope.md
R7, 30_encoding.md R53, 20_memory.md R34; log 4). -/
def respond (status : Status) (data : ResponseData) (s : State) : State :=
  { s with responses := s.responses ++ [{ status := status, data := data }] }

/-! ### Raising an error (60_exceptions.md R125, R133) -/

/-- The rows of R125. -/
inductive ErrorCause where
  /-- `DIGEST` with `cap < 16` (R126). -/
  | smallBuffer
  /-- `FEED` or `FINALIZE` of this engine with `pendingLength >= blockSize` (R127 (a), (b)). -/
  | pendingOverflow (alg : Algorithm)
  /-- `FEED`, `FINALIZE` or `DIGEST` of an engine whose phase is `FAULTED` (R127 (c)). -/
  | engineFaulted
  /-- A command word that decodes to illegal (R129). -/
  | illegalWord
  /-- `FEED` or `FINALIZE` of an engine whose phase is `FINALIZED` (R128). -/
  | alreadyFinalized
  deriving DecidableEq, Repr

/-- The status of the error's row in R125. -/
def ErrorCause.status : ErrorCause → Status
  | .smallBuffer => .insufficientBuffer
  | .pendingOverflow _ => .invalidState
  | .engineFaulted => .invalidState
  | .illegalWord => .illegalCommand
  | .alreadyFinalized => .finalized

/-- The state change of the error's row in R125: `phase <- FAULTED` for a pending length out of range, nothing
for every other row. -/
def ErrorCause.effect (c : ErrorCause) (s : State) : State :=
  match c with
  | .smallBuffer => s
  | .pendingOverflow alg => setPhase alg .faulted s
  | .engineFaulted => s
  | .illegalWord => s
  | .alreadyFinalized => s

/-- `raise`: the state change of the error's row, then the status with no data; the command has ended and nothing
is saved anywhere (R133). There is no return instruction (R135): the next command is checked afresh, and only
`RESET` leaves `FAULTED`. -/
def raise (c : ErrorCause) (s : State) : State := respond c.status .none (c.effect s)

end Sys2Proof.Machine
end

