-- ==== Sys2Proof/Machine/Flags.lean ====
section
/-! DEFINITION. The core has no condition codes (10_state.md R24); the only flag-like state is `phase`. Here are
the codes of the phases and statuses and the checks that read the phase, in the order of 40_interface.md R61. -/

namespace Sys2Proof.Machine

/-- The 2-bit code of a phase (10_state.md R15, R21); 3 is never produced. -/
def Phase.code : Phase → BitVec 2
  | .absorbing => 0
  | .finalized => 1
  | .faulted => 2

/-- The 8-bit code of a status (30_encoding.md R54); 5 to 255 are never produced. -/
def Status.code : Status → BitVec 8
  | .ok => 0
  | .insufficientBuffer => 1
  | .invalidState => 2
  | .illegalCommand => 3
  | .finalized => 4

/-- The checks of `FEED` and `FINALIZE`, lines 3, 5 and 6 of R61: the error to raise, or none. -/
def absorbCheck (alg : Algorithm) (s : State) : Option ErrorCause :=
  if phaseOf alg s = .faulted then some .engineFaulted
  else if phaseOf alg s = .finalized then some .alreadyFinalized
  else if blockSize alg ≤ pendingLengthOf alg s then some (.pendingOverflow alg)
  else none

/-- The checks of `DIGEST`, lines 3 and 4 of R61: the error to raise, or none. -/
def digestCheck (alg : Algorithm) (cap : Nat) (s : State) : Option ErrorCause :=
  if phaseOf alg s = .faulted then some .engineFaulted
  else if cap < digestLength then some .smallBuffer
  else none

end Sys2Proof.Machine
end

