-- ==== Sys2Proof/Config.lean ====
section
/-! DEFINITION. What the spec leaves open: the free values. -/

namespace Sys2Proof

/-- Byte number `n` drawn where the spec says `unspecified` (40_interface.md R68, 93_implementation_defined.md
U2): the bytes `DIGEST` answers before `FINALIZE`. "A model must not give these bytes a value", so the constant
has no body; the machine applies it to a counter that it advances at each draw, so that two reads need not agree
(log 5). -/
opaque Config.unspecifiedByte : Algorithm → Nat → Byte

end Sys2Proof
end

