-- ==== Sys2Proof/Machine/Operands.lean ====
section
/-! DEFINITION. How multi-byte values are assembled from bytes and taken apart (20_memory.md R35 to R37), and
where unspecified bytes come from. -/

namespace Sys2Proof.Machine

/-- `Xw[k]`: the little-endian word at indices `4k` to `4k + 3` of a block (R35). -/
def loadWord {n : Nat} (block : Vector Byte n) (k : Nat) : Word :=
  (arrayRead block (4 * k)).setWidth 32
    + (arrayRead block (4 * k + 1)).setWidth 32 * 0x100
    + (arrayRead block (4 * k + 2)).setWidth 32 * 0x10000
    + (arrayRead block (4 * k + 3)).setWidth 32 * 0x1000000

/-- `v[8b+7 : 8b]`, byte `b` of a word or of the length, least significant byte first (R36, R37). -/
def byteAt {w : Nat} (v : BitVec w) (b : Nat) : Byte := v.extractLsb' (8 * b) 8

/-- `Lbits` as eight little-endian bytes (R36). -/
def lengthBytes (bits : DWord) : List Byte := (List.range 8).map (byteAt bits)

/-- `D[4q + b] = W4[q][8b+7 : 8b]`: the four words concatenated little-endian in index order (R37). -/
def wordsBytes (words : Vector Word 4) : List Byte :=
  (List.range digestLength).map fun n => byteAt (arrayRead words (n / 4)) (n % 4)

/-- `unspecified(16)` (00_scope.md R7): sixteen free bytes of the given engine, numbered on from `drawn`
(log 5). -/
def unspecifiedBytes (alg : Algorithm) (drawn : Nat) : List Byte :=
  (List.range digestLength).map fun i => Config.unspecifiedByte alg (drawn + i)

end Sys2Proof.Machine
end

