-- ==== Sys2Proof/Machine/Md2Block.lean ====
section
/-! DEFINITION. The micro-operations of the MD2 engine (41_md2_engine.md R81 to R84). -/

namespace Sys2Proof.Machine

/-- The two loading loops of `COMPRESS2` (R81): the block into `X[16..31]`, then the exclusive-OR of the first two
regions into `X[32..47]` (layout 20_memory.md R31). -/
def compress2Load (x : Vector Byte 48) (pb : Vector Byte 16) : Vector Byte 48 :=
  let x1 := arrayFill x 16 16 fun i => arrayRead pb (i - 16)
  arrayFill x1 32 16 fun i => arrayRead x1 (i - 32) ^^^ arrayRead x1 (i - 16)

/-- The inner loop of a round over the bytes from some index on (R81), in index order: `X[i] <- X[i] XOR S[t]`, then
`t <- X[i]`, the new value just written. Gives the new bytes and the last `t`. -/
def compress2Bytes : List Byte → Byte → List Byte × Byte
  | [], t => ([], t)
  | x :: xs, t =>
    let b := x ^^^ sBox t
    let rest := compress2Bytes xs b
    (b :: rest.1, rest.2)

/-- Round `j` (R81): the 48 bytes in order, then `t <- (t + j) mod 256`. -/
def compress2Round (st : List Byte × Byte) (j : Nat) : List Byte × Byte :=
  let st' := compress2Bytes st.1 st.2
  (st'.1, st'.2 + BitVec.ofNat 8 j)

/-- The eighteen rounds, `j = 0, 1, ..., 17`, with `t <- 0` at the start (R81, decisions D29 and D32). -/
def compress2Rounds (bytes : List Byte) : List Byte × Byte :=
  (List.range 18).foldl compress2Round (bytes, 0)

/-- `COMPRESS2` as a function of `X` and `PB`, the only state it reads (R81): all 48 bytes of `X` are rewritten
(20_memory.md R31). -/
@[irreducible] def compress2 (x : Vector Byte 48) (pb : Vector Byte 16) : Vector Byte 48 :=
  let rounds := (compress2Rounds (compress2Load x pb).toList).1
  arrayFill x 0 48 fun i => rounds.getD i 0

/-- The loop of `CHECKSUM2` over the bytes of `C` and `PB` from some index on (R82), in index order:
`C[i] <- C[i] XOR S[PB[i] XOR L]`, then `L <- C[i]`, the new value just written. -/
def checksum2Bytes : List Byte → List Byte → Byte → List Byte
  | c :: cs, p :: ps, l =>
    let b := c ^^^ sBox (p ^^^ l)
    b :: checksum2Bytes cs ps b
  | _, _, _ => []

/-- `CHECKSUM2` as a function of `C` and `PB`, with `L <- C[15]` at the start (R82, decision D33). -/
@[irreducible] def checksum2 (c pb : Vector Byte 16) : Vector Byte 16 :=
  let new := checksum2Bytes c.toList pb.toList (arrayRead c 15)
  arrayFill c 0 16 fun i => new.getD i 0

/-- `COMPRESS2` on the engine: writes `X` and nothing else (R81). -/
def Md2Engine.compress (e : Md2Engine) : Md2Engine :=
  { e with transformBuffer := compress2 e.transformBuffer e.pendingBlock }

/-- `CHECKSUM2` on the engine: writes `C` and nothing else (R82). -/
def Md2Engine.updateChecksum (e : Md2Engine) : Md2Engine :=
  { e with checksum := checksum2 e.checksum e.pendingBlock }

/-- `BLOCK2`: `COMPRESS2` then `CHECKSUM2` on the same block (R83). -/
def Md2Engine.block (e : Md2Engine) : Md2Engine := e.compress.updateChecksum

/-- `ABSORB2(b)` (R84): the byte into the input buffer, and the block boundary detector of 40_interface.md R64. -/
def Md2Engine.absorb (e : Md2Engine) (b : Byte) : Md2Engine :=
  let e' : Md2Engine :=
    { e with
      pendingBlock := arrayWrite e.pendingBlock e.pendingLength b
      pendingLength := e.pendingLength + 1 }
  if e'.pendingLength = 16 then { e'.block with pendingLength := 0 } else e'

/-- The bytes of a payload absorbed in order, each completely before the next (40_interface.md R63). -/
def Md2Engine.absorbAll (e : Md2Engine) (payload : List Byte) : Md2Engine :=
  payload.foldl Md2Engine.absorb e

/-- The padding step of `FINALIZE.MD2` (R87): `k = 16 - PL` copies of the byte `k` from index `PL` on. -/
def Md2Engine.pad (e : Md2Engine) : Md2Engine :=
  let k := 16 - e.pendingLength
  { e with pendingBlock := arrayFill e.pendingBlock e.pendingLength k fun _ => BitVec.ofNat 8 k }

/-- `for i in 0 .. 15: PB[i] <- C[i]`: the checksum becomes a block, a copy of values (R87, 10_state.md R28). -/
def Md2Engine.loadChecksum (e : Md2Engine) : Md2Engine :=
  { e with pendingBlock := arrayFill e.pendingBlock 0 16 fun i => arrayRead e.checksum i }

/-- The accepted `FINALIZE.MD2` on the engine (R87): pad, `COMPRESS2`, `CHECKSUM2`, checksum block, `COMPRESS2`,
`PL <- 0`, `phase <- FINALIZED`. -/
def Md2Engine.finalize (e : Md2Engine) : Md2Engine :=
  { e.pad.compress.updateChecksum.loadChecksum.compress with
    pendingLength := 0
    phase := .finalized }

/-- `X[0], X[1], ..., X[15]` (R88). -/
def Md2Engine.digestBytes (e : Md2Engine) : List Byte :=
  (List.range digestLength).map (arrayRead e.transformBuffer)

end Sys2Proof.Machine
end

