-- ==== Sys2Proof/Machine/Md2.lean ====
section
/-! DEFINITION. The six commands of the MD2 engine (41_md2_engine.md R85 to R90). -/

namespace Sys2Proof.Machine

/-- R85's writes: every piece of state of `E2`, in the rule's order. -/
@[irreducible] def Md2Engine.clear (e : Md2Engine) : Md2Engine :=
  { checksum := arrayFill e.checksum 0 16 fun _ => 0x00
    transformBuffer := arrayFill e.transformBuffer 0 48 fun _ => 0x00
    pendingBlock := arrayFill e.pendingBlock 0 16 fun _ => 0x00
    pendingLength := 0
    phase := .absorbing }

/-- `RESET.MD2` (R85). -/
def execResetMd2 (s : State) : Host.Outcome State Fault Refusal :=
  .next (respond .ok .none { s with e2 := s.e2.clear })

/-- `FEED.MD2` (R86). -/
def execFeedMd2 (payload : List Byte) (s : State) : Host.Outcome State Fault Refusal :=
  match absorbCheck .md2 s with
  | some cause => .next (raise cause s)
  | none => .next (respond .ok .none { s with e2 := s.e2.absorbAll payload })

/-- `FINALIZE.MD2` (R87). -/
def execFinalizeMd2 (s : State) : Host.Outcome State Fault Refusal :=
  match absorbCheck .md2 s with
  | some cause => .next (raise cause s)
  | none => .next (respond .ok .none { s with e2 := s.e2.finalize })

/-- `DIGEST.MD2` (R88): the digest after `FINALIZE`, sixteen unspecified bytes before it (log 5). -/
def execDigestMd2 (cap : Nat) (s : State) : Host.Outcome State Fault Refusal :=
  match digestCheck .md2 cap s with
  | some cause => .next (raise cause s)
  | none =>
    if s.e2.phase = .finalized then .next (respond .ok (.bytes s.e2.digestBytes) s)
    else .next (respond .ok (.bytes (unspecifiedBytes .md2 s.draws2)) { s with draws2 := s.draws2 + digestLength })

/-- `BLOCKSIZE.MD2` (R89). -/
def execBlocksizeMd2 (s : State) : Host.Outcome State Fault Refusal :=
  .next (respond .ok (.number (BitVec.ofNat 32 (blockSize .md2))) s)

/-- `DIGESTBITS.MD2` (R90). -/
def execDigestbitsMd2 (s : State) : Host.Outcome State Fault Refusal :=
  .next (respond .ok (.number (BitVec.ofNat 32 (digestSizeBits .md2))) s)

end Sys2Proof.Machine
end

