-- ==== Sys2Proof/Machine/Md4Block.lean ====
section
/-! DEFINITION. The round functions and micro-operations of the MD4 engine (42_md4_engine.md R101 to R112). -/

namespace Sys2Proof.Machine

/-- `f(x, y, z) = z XOR (x AND (y XOR z))` (R101). -/
def md4F (x y z : Word) : Word := z ^^^ (x &&& (y ^^^ z))

/-- `g(x, y, z) = (x AND y) OR (z AND (x OR y))` (R102). -/
def md4G (x y z : Word) : Word := (x &&& y) ||| (z &&& (x ||| y))

/-- `h(x, y, z) = x XOR y XOR z` (R103). -/
def md4H (x y z : Word) : Word := x ^^^ y ^^^ z

/-- `F_r`: `F_1 = f`, `F_2 = g`, `F_3 = h` (R106). -/
def md4RoundFunction (r : Nat) (x y z : Word) : Word :=
  match r with
  | 1 => md4F x y z
  | 2 => md4G x y z
  | _ => md4H x y z

/-- `r = floor(n / 16) + 1`, the round of step `n` (R106). -/
def md4RoundOf (n : Nat) : Nat := n / 16 + 1

/-- `ti = (4 - (i mod 4)) mod 4` with `i = n mod 16`: the working word step `n` replaces (R106). -/
def md4Target (n : Nat) : Nat := (4 - n % 16 % 4) % 4

/-- `k_n` (R107, R108, R109). -/
def md4WordIndex (n : Nat) : Nat := (md4WordOrder (md4RoundOf n)).getD (n % 16) 0

/-- `s_n` (R107, R108, R109). -/
def md4Amount (n : Nat) : Nat := (md4Rotation (md4RoundOf n)).getD (n % 16 % 4) 0

/-- The sixteen schedule words of a block (R105, 20_memory.md R35). -/
def md4Schedule (pb : Vector Byte 64) : Vector Word 16 := Vector.ofFn fun k => loadWord pb k.val

/-- The value `STEP4` number `n` writes to its target (R106). -/
def step4Value (xw : Vector Word 16) (v : Vector Word 4) (n : Nat) : Word :=
  let ti := md4Target n
  let a := arrayRead v ti
  let b := arrayRead v ((ti + 1) % 4)
  let c := arrayRead v ((ti + 2) % 4)
  let d := arrayRead v ((ti + 3) % 4)
  rol32 (a + md4RoundFunction (md4RoundOf n) b c d + arrayRead xw (md4WordIndex n) + md4Additive (md4RoundOf n))
    (md4Amount n)

/-- `STEP4` number `n`: the target word is replaced, the three others stay (R106). -/
def step4 (xw : Vector Word 16) (v : Vector Word 4) (n : Nat) : Vector Word 4 :=
  arrayWrite v (md4Target n) (step4Value xw v n)

/-- The 48 steps in order (R110). -/
def md4Rounds (xw : Vector Word 16) (v : Vector Word 4) : Vector Word 4 :=
  (List.range 48).foldl (step4 xw) v

/-- `BLOCK4` as a function of `W4` and `PB`, the only state it reads (R110). -/
@[irreducible] def block4 (words : Vector Word 4) (pb : Vector Byte 64) : Vector Word 4 :=
  let v := md4Rounds (md4Schedule pb) words
  arrayFill words 0 4 fun q => arrayRead words q + arrayRead v q

/-- `BLOCK4` on the engine: writes `W4` and nothing else (R110). -/
def Md4Engine.block (e : Md4Engine) : Md4Engine :=
  { e with words := block4 e.words e.pendingBlock }

/-- `PADABSORB4(b)` (R112): the byte into the input buffer, and the block boundary detector of 40_interface.md
R64. -/
def Md4Engine.padAbsorb (e : Md4Engine) (b : Byte) : Md4Engine :=
  let e' : Md4Engine :=
    { e with
      pendingBlock := arrayWrite e.pendingBlock e.pendingLength b
      pendingLength := e.pendingLength + 1 }
  if e'.pendingLength = 64 then { e'.block with pendingLength := 0 } else e'

/-- `ABSORB4(b)` (R111): as `PADABSORB4`, and the bit count grows by 8 modulo 2^64 before the detector looks. -/
def Md4Engine.absorb (e : Md4Engine) (b : Byte) : Md4Engine :=
  let e' : Md4Engine :=
    { e with
      pendingBlock := arrayWrite e.pendingBlock e.pendingLength b
      pendingLength := e.pendingLength + 1
      totalBitLength := e.totalBitLength + 8 }
  if e'.pendingLength = 64 then { e'.block with pendingLength := 0 } else e'

/-- The bytes of a payload absorbed in order, each completely before the next (40_interface.md R63). -/
def Md4Engine.absorbAll (e : Md4Engine) (payload : List Byte) : Md4Engine :=
  payload.foldl Md4Engine.absorb e

/-- `while PL != 56: PADABSORB4(0x00)` (R115), at most `fuel` times round. The rule's loop ends after at most 63
rounds from any `PL <= 63` (70_reset_and_hazards.md R156). -/
def Md4Engine.padZeros : Nat → Md4Engine → Md4Engine
  | 0, e => e
  | fuel + 1, e => if e.pendingLength = 56 then e else Md4Engine.padZeros fuel (e.padAbsorb 0x00)

/-- The accepted `FINALIZE.MD4` on the engine (R115): `Lbits` latched, `0x80`, zeros until `PL = 56`, the eight
length bytes, `phase <- FINALIZED`. -/
@[irreducible] def Md4Engine.finalize (e : Md4Engine) : Md4Engine :=
  let bits := e.totalBitLength
  let padded := Md4Engine.padZeros 63 (e.padAbsorb 0x80)
  { (lengthBytes bits).foldl Md4Engine.padAbsorb padded with phase := .finalized }

/-- The sixteen bytes `D[0..15]` (R116, 20_memory.md R37). -/
def Md4Engine.digestBytes (e : Md4Engine) : List Byte := wordsBytes e.words

end Sys2Proof.Machine
end

