-- ==== Sys2Proof/Machine/Md4.lean ====
section
/-! DEFINITION. The six commands of the MD4 engine (42_md4_engine.md R113 to R118). -/

namespace Sys2Proof.Machine

/-- R113's writes: every piece of state of `E4`, in the rule's order. -/
@[irreducible] def Md4Engine.clear (e : Md4Engine) : Md4Engine :=
  { words :=
      arrayWrite (arrayWrite (arrayWrite (arrayWrite e.words 0 0x67452301) 1 0xEFCDAB89) 2 0x98BADCFE) 3 0x10325476
    pendingBlock := arrayFill e.pendingBlock 0 64 fun _ => 0x00
    pendingLength := 0
    totalBitLength := 0
    phase := .absorbing }

/-- `RESET.MD4` (R113). -/
def execResetMd4 (s : State) : Host.Outcome State Fault Refusal :=
  .next (respond .ok .none { s with e4 := s.e4.clear })

/-- `FEED.MD4` (R114). -/
def execFeedMd4 (payload : List Byte) (s : State) : Host.Outcome State Fault Refusal :=
  match absorbCheck .md4 s with
  | some cause => .next (raise cause s)
  | none => .next (respond .ok .none { s with e4 := s.e4.absorbAll payload })

/-- `FINALIZE.MD4` (R115). -/
def execFinalizeMd4 (s : State) : Host.Outcome State Fault Refusal :=
  match absorbCheck .md4 s with
  | some cause => .next (raise cause s)
  | none => .next (respond .ok .none { s with e4 := s.e4.finalize })

/-- `DIGEST.MD4` (R116): the digest after `FINALIZE`, sixteen unspecified bytes before it (log 5). -/
def execDigestMd4 (cap : Nat) (s : State) : Host.Outcome State Fault Refusal :=
  match digestCheck .md4 cap s with
  | some cause => .next (raise cause s)
  | none =>
    if s.e4.phase = .finalized then .next (respond .ok (.bytes s.e4.digestBytes) s)
    else .next (respond .ok (.bytes (unspecifiedBytes .md4 s.draws4)) { s with draws4 := s.draws4 + digestLength })

/-- `BLOCKSIZE.MD4` (R117). -/
def execBlocksizeMd4 (s : State) : Host.Outcome State Fault Refusal :=
  .next (respond .ok (.number (BitVec.ofNat 32 (blockSize .md4))) s)

/-- `DIGESTBITS.MD4` (R118). -/
def execDigestbitsMd4 (s : State) : Host.Outcome State Fault Refusal :=
  .next (respond .ok (.number (BitVec.ofNat 32 (digestSizeBits .md4))) s)

end Sys2Proof.Machine
end

