-- ==== Sys2Proof/Syntax.lean ====
section
/-! DEFINITION. The twelve commands (30_encoding.md R57), one constructor for each row of the opcode map. -/

namespace Sys2Proof

/-- One command together with its operand. A `FEED` carries its payload bytes, `payload[0]` first, and its `len`
field is the payload's length (30_encoding.md R49, R50); a `DIGEST` carries the capacity `cap` of the caller's
buffer in bytes. No other command has an operand. -/
inductive Instr where
  | resetMd2
  | feedMd2 (payload : List Byte)
  | finalizeMd2
  | digestMd2 (cap : Nat)
  | blocksizeMd2
  | digestbitsMd2
  | resetMd4
  | feedMd4 (payload : List Byte)
  | finalizeMd4
  | digestMd4 (cap : Nat)
  | blocksizeMd4
  | digestbitsMd4
  deriving DecidableEq, Repr

end Sys2Proof
end

