-- ==== Sys2Proof/Machine/Dispatch.lean ====
section
/-! DEFINITION. One arm for each command of the opcode map (30_encoding.md R57). -/

namespace Sys2Proof.Machine

def exec (i : Instr) (s : State) : Host.Outcome State Fault Refusal :=
  match i with
  | .resetMd2 => Sys2Proof.Machine.execResetMd2 s
  | .feedMd2 payload => Sys2Proof.Machine.execFeedMd2 payload s
  | .finalizeMd2 => Sys2Proof.Machine.execFinalizeMd2 s
  | .digestMd2 cap => Sys2Proof.Machine.execDigestMd2 cap s
  | .blocksizeMd2 => Sys2Proof.Machine.execBlocksizeMd2 s
  | .digestbitsMd2 => Sys2Proof.Machine.execDigestbitsMd2 s
  | .resetMd4 => Sys2Proof.Machine.execResetMd4 s
  | .feedMd4 payload => Sys2Proof.Machine.execFeedMd4 payload s
  | .finalizeMd4 => Sys2Proof.Machine.execFinalizeMd4 s
  | .digestMd4 cap => Sys2Proof.Machine.execDigestMd4 cap s
  | .blocksizeMd4 => Sys2Proof.Machine.execBlocksizeMd4 s
  | .digestbitsMd4 => Sys2Proof.Machine.execDigestbitsMd4 s

end Sys2Proof.Machine
end

