-- ==== Sys2Proof/WellFormed.lean ====
section
/-! DEFINITION. Which commands the 16-bit `len` field can carry (30_encoding.md R46, R49). -/

namespace Sys2Proof

/-- The largest value of the `len` field: the longest payload of one `FEED` and the largest capacity of a
`DIGEST` (00_scope.md R5, 30_encoding.md R46). -/
def maxLen : Nat := 65535

/-- A command is well formed when its operand fits the `len` field. -/
def Instr.wellFormed : Instr → Bool
  | .resetMd2 => true
  | .feedMd2 payload => payload.length ≤ maxLen
  | .finalizeMd2 => true
  | .digestMd2 cap => cap ≤ maxLen
  | .blocksizeMd2 => true
  | .digestbitsMd2 => true
  | .resetMd4 => true
  | .feedMd4 payload => payload.length ≤ maxLen
  | .finalizeMd4 => true
  | .digestMd4 cap => cap ≤ maxLen
  | .blocksizeMd4 => true
  | .digestbitsMd4 => true

end Sys2Proof
end

