-- ==== Sys2Proof/Decode.lean ====
section
/-! DEFINITION. The command word (30_encoding.md sections 1, 2 and 5): its fields, the decoder of R50, the
encoder, and the opcode map of R57 as a table of its own. -/

namespace Sys2Proof

/-! ### Fields of the command word (R46) -/

/-- `W[31:28]`. -/
def opField (w : Word) : Nat := (w.extractLsb' 28 4).toNat

/-- `W[27:24]`. -/
def algField (w : Word) : Nat := (w.extractLsb' 24 4).toNat

/-- `W[23:16]`, which must be zero. -/
def rsvField (w : Word) : Nat := (w.extractLsb' 16 8).toNat

/-- `W[15:0]`, zero-extended, not scaled, not shifted (R49). -/
def lenField (w : Word) : Nat := (w.extractLsb' 0 16).toNat

/-- The six operations (R47). -/
inductive Op where
  | reset
  | feed
  | finalize
  | digest
  | blocksize
  | digestbits
  deriving DecidableEq, Repr

/-- The operation's number (R47). -/
def Op.number : Op → Nat
  | .reset => 0
  | .feed => 1
  | .finalize => 2
  | .digest => 3
  | .blocksize => 4
  | .digestbits => 5

/-- The operation an `op` field names; 6 to 15 are reserved (R47). -/
def Op.ofNumber : Nat → Option Op
  | 0 => some .reset
  | 1 => some .feed
  | 2 => some .finalize
  | 3 => some .digest
  | 4 => some .blocksize
  | 5 => some .digestbits
  | _ => none

/-- The engine's number (R48). -/
def Algorithm.number : Algorithm → Nat
  | .md2 => 0
  | .md4 => 1

/-- The engine an `alg` field selects; 2 to 15 are reserved (R48). -/
def Algorithm.ofNumber : Nat → Option Algorithm
  | 0 => some .md2
  | 1 => some .md4
  | _ => none

/-- Operations whose `len` field must be zero (R46, R50). -/
def Op.takesNoLen : Op → Bool
  | .reset => true
  | .feed => false
  | .finalize => true
  | .digest => false
  | .blocksize => true
  | .digestbits => true

/-! ### The decoder (R50) -/

/-- Why a command word and the payload stream behind it give no command. The first four are the illegal words of
R51, in the order R50 tests for them; the last is a legal `FEED` word whose payload has not been delivered in
full (20_memory.md R33). -/
inductive Reject where
  | reservedOp
  | reservedAlg
  | reservedBits
  | nonzeroLen
  | payloadIncomplete
  deriving DecidableEq, Repr

/-- Takes the `len` payload bytes of a `FEED` from the payload stream, in order (20_memory.md R33). -/
def takePayload (len : Nat) (stream : List Byte) : Except Reject (List Byte × List Byte) :=
  if len ≤ stream.length then .ok (stream.take len, stream.drop len) else .error .payloadIncomplete

/-- The command of an operation and an engine (R57), and what it leaves of the payload stream. -/
def assemble (op : Op) (alg : Algorithm) (len : Nat) (stream : List Byte) :
    Except Reject (Instr × List Byte) :=
  match op, alg with
  | .reset, .md2 => .ok (.resetMd2, stream)
  | .reset, .md4 => .ok (.resetMd4, stream)
  | .feed, .md2 => (takePayload len stream).map fun p => (.feedMd2 p.1, p.2)
  | .feed, .md4 => (takePayload len stream).map fun p => (.feedMd4 p.1, p.2)
  | .finalize, .md2 => .ok (.finalizeMd2, stream)
  | .finalize, .md4 => .ok (.finalizeMd4, stream)
  | .digest, .md2 => .ok (.digestMd2 len, stream)
  | .digest, .md4 => .ok (.digestMd4 len, stream)
  | .blocksize, .md2 => .ok (.blocksizeMd2, stream)
  | .blocksize, .md4 => .ok (.blocksizeMd4, stream)
  | .digestbits, .md2 => .ok (.digestbitsMd2, stream)
  | .digestbits, .md4 => .ok (.digestbitsMd4, stream)

/-- R50: the command a word stands for, with the payload bytes it takes from the head of the payload stream; the
tests stand in R50's order. Total on every word and every stream. -/
def decode (w : Word) (stream : List Byte) : Except Reject (Instr × List Byte) :=
  match Op.ofNumber (opField w) with
  | none => .error .reservedOp
  | some op =>
    match Algorithm.ofNumber (algField w) with
    | none => .error .reservedAlg
    | some alg =>
      if rsvField w ≠ 0 then .error .reservedBits
      else if op.takesNoLen = true ∧ lenField w ≠ 0 then .error .nonzeroLen
      else assemble op alg (lenField w) stream

/-! ### The encoder (R46 to R49) -/

/-- The operation of a command. -/
def Instr.op : Instr → Op
  | .resetMd2 => .reset
  | .feedMd2 _ => .feed
  | .finalizeMd2 => .finalize
  | .digestMd2 _ => .digest
  | .blocksizeMd2 => .blocksize
  | .digestbitsMd2 => .digestbits
  | .resetMd4 => .reset
  | .feedMd4 _ => .feed
  | .finalizeMd4 => .finalize
  | .digestMd4 _ => .digest
  | .blocksizeMd4 => .blocksize
  | .digestbitsMd4 => .digestbits

/-- The engine a command addresses. -/
def Instr.alg : Instr → Algorithm
  | .resetMd2 => .md2
  | .feedMd2 _ => .md2
  | .finalizeMd2 => .md2
  | .digestMd2 _ => .md2
  | .blocksizeMd2 => .md2
  | .digestbitsMd2 => .md2
  | .resetMd4 => .md4
  | .feedMd4 _ => .md4
  | .finalizeMd4 => .md4
  | .digestMd4 _ => .md4
  | .blocksizeMd4 => .md4
  | .digestbitsMd4 => .md4

/-- The number in a command's `len` field: payload length, capacity, or zero (R46). -/
def Instr.len : Instr → Nat
  | .resetMd2 => 0
  | .feedMd2 payload => payload.length
  | .finalizeMd2 => 0
  | .digestMd2 cap => cap
  | .blocksizeMd2 => 0
  | .digestbitsMd2 => 0
  | .resetMd4 => 0
  | .feedMd4 payload => payload.length
  | .finalizeMd4 => 0
  | .digestMd4 cap => cap
  | .blocksizeMd4 => 0
  | .digestbitsMd4 => 0

/-- The payload bytes that follow a command's word: a `FEED` has some, no other command does (R45). -/
def Instr.payload : Instr → List Byte
  | .resetMd2 => []
  | .feedMd2 payload => payload
  | .finalizeMd2 => []
  | .digestMd2 _ => []
  | .blocksizeMd2 => []
  | .digestbitsMd2 => []
  | .resetMd4 => []
  | .feedMd4 payload => payload
  | .finalizeMd4 => []
  | .digestMd4 _ => []
  | .blocksizeMd4 => []
  | .digestbitsMd4 => []

/-- The word with the given fields and `rsv = 0` (R46). -/
def commandWord (op : Op) (alg : Algorithm) (len : Nat) : Word :=
  BitVec.ofNat 32 (op.number * 2 ^ 28 + alg.number * 2 ^ 24 + len)

/-- A command as it stands on the command port: its word, then its payload bytes (R45). -/
def encode (i : Instr) : Word × List Byte :=
  (commandWord i.op i.alg i.len, i.payload)

/-! ### The opcode map (R57), written from its own columns -/

/-- One row of the opcode map: a word `W` is the command of the row exactly when `W AND mask = pattern`. -/
structure OpcodeRow where
  op : Op
  alg : Algorithm
  pattern : Word
  mask : Word
  deriving DecidableEq, Repr

/-- The rows of R57 for `E2`. -/
def opcodeRowsMd2 : List OpcodeRow :=
  [ ⟨.reset, .md2, 0x00000000, 0xFFFFFFFF⟩,
    ⟨.feed, .md2, 0x10000000, 0xFFFF0000⟩,
    ⟨.finalize, .md2, 0x20000000, 0xFFFFFFFF⟩,
    ⟨.digest, .md2, 0x30000000, 0xFFFF0000⟩,
    ⟨.blocksize, .md2, 0x40000000, 0xFFFFFFFF⟩,
    ⟨.digestbits, .md2, 0x50000000, 0xFFFFFFFF⟩ ]

/-- The rows of R57 for `E4`. -/
def opcodeRowsMd4 : List OpcodeRow :=
  [ ⟨.reset, .md4, 0x01000000, 0xFFFFFFFF⟩,
    ⟨.feed, .md4, 0x11000000, 0xFFFF0000⟩,
    ⟨.finalize, .md4, 0x21000000, 0xFFFFFFFF⟩,
    ⟨.digest, .md4, 0x31000000, 0xFFFF0000⟩,
    ⟨.blocksize, .md4, 0x41000000, 0xFFFFFFFF⟩,
    ⟨.digestbits, .md4, 0x51000000, 0xFFFFFFFF⟩ ]

/-- The twelve rows of R57. -/
def opcodeRows : List OpcodeRow := opcodeRowsMd2 ++ opcodeRowsMd4

/-- R57's test: the word is the command of the row. -/
def OpcodeRow.covers (r : OpcodeRow) (w : Word) : Bool := w &&& r.mask == r.pattern

/-! ### Words numbered as the opcode table numbers them -/

/-- The command word in a table word: its first 32 bits, bits from `nbits` up being zero (log 12). -/
def tableCommandWord (nbits w : Nat) : Word := BitVec.ofNat 32 (w % 2 ^ nbits)

/-- The payload bytes in a table word: they follow the command word, eight bits each, as many as a `FEED` word's
`len` field counts; bits from `nbits` up are zero (log 12). -/
def tablePayload (nbits w : Nat) : List Byte :=
  let word := tableCommandWord nbits w
  if Op.ofNumber (opField word) = some .feed then
    (List.range (lenField word)).map fun k => BitVec.ofNat 8 (w % 2 ^ nbits / 2 ^ (32 + 8 * k))
  else []

/-- The command the decoder reads from a table word, `none` where it refuses the word. -/
def decodeTableWord (nbits w : Nat) : Option Instr :=
  match decode (tableCommandWord nbits w) (tablePayload nbits w) with
  | .ok r => some r.1
  | .error _ => none

end Sys2Proof
end

