-- ==== Sys2Proof/Machine/Fetch.lean ====
section
/-! DEFINITION. Taking the next command from the command port (30_encoding.md R45, R50, R51; 40_interface.md R60,
R61 line 1; 20_memory.md R33). -/

namespace Sys2Proof.Machine

/-- What the command port holds for the next step. -/
inductive Fetched where
  /-- The host has issued nothing: between commands nothing happens (40_interface.md R60, log 2). -/
  | idle
  /-- A `FEED` word whose payload is not yet whole: it is executed only once it is (20_memory.md R33, log 3). -/
  | waiting
  /-- An illegal word, and the machine without it; no payload is consumed (30_encoding.md R51). -/
  | illegal (rest : State)
  /-- A command, and the machine without its word and payload. -/
  | command (i : Instr) (rest : State)
  deriving DecidableEq, Repr

/-- The next command of the command port. The command is handed over whole, so its word and its payload leave the
port whatever its response will be (log 13). -/
def fetch (s : State) : Fetched :=
  match s.commandWords with
  | [] => .idle
  | w :: words =>
    match decode w s.payloadStream with
    | .ok (i, stream) => .command i { s with commandWords := words, payloadStream := stream }
    | .error .payloadIncomplete => .waiting
    | .error .reservedOp => .illegal { s with commandWords := words }
    | .error .reservedAlg => .illegal { s with commandWords := words }
    | .error .reservedBits => .illegal { s with commandWords := words }
    | .error .nonzeroLen => .illegal { s with commandWords := words }

/-- The host puts one command word, with the payload bytes that follow it, at the head of the command port. -/
def placeCommand (w : Word) (payload : List Byte) (s : State) : State :=
  { s with commandWords := w :: s.commandWords, payloadStream := payload ++ s.payloadStream }

/-- The host issues commands: their words and payloads join the ends of the two input streams (log 1). -/
def State.issue (s : State) (is : List Instr) : State :=
  { s with
    commandWords := s.commandWords ++ is.map fun i => (encode i).1
    payloadStream := s.payloadStream ++ is.flatMap fun i => (encode i).2 }

end Sys2Proof.Machine
end

