-- ==== Sys2Proof/Machine/Step.lean ====
section
/-! DEFINITION. One step: one command, from a command boundary to the next (40_interface.md R60). -/

namespace Sys2Proof.Machine

/-- The core takes the next command and executes it completely. With nothing to take, nothing happens; an illegal
word is answered `IllegalCommand` (40_interface.md R61 line 1, 60_exceptions.md R129). -/
def step (s : State) : Host.Outcome State Fault Refusal :=
  match fetch s with
  | .idle => .next s
  | .waiting => .next s
  | .illegal rest => .next (raise .illegalWord rest)
  | .command i rest => exec i rest

/-- The state with the table word `w` of `nbits` bits as the very next command: its command word at the head of the
command words and, for a `FEED`, its payload bytes at the head of the payload stream (log 12). -/
def State.withFetchWord (s : State) (nbits w : Nat) : State :=
  placeCommand (tableCommandWord nbits w) (tablePayload nbits w) s

end Sys2Proof.Machine
end

