-- ==== Sys2Proof/Machine/Assembler.lean ====
section
/-! DEFINITION. The line syntax and the pseudo-commands of the spec (30_encoding.md R55, R56), on text as a list of
characters: reading a line into commands, and writing a command, a response and a trace line. -/

namespace Sys2Proof.Machine

/-! ### Pseudo-commands (R56) -/

/-- The pseudo-commands of R56. -/
inductive Pseudo where
  | hash (alg : Algorithm) (bytes : List Byte)
  | feedl (alg : Algorithm) (bytes : List Byte)
  | nopfeed (alg : Algorithm)
  deriving DecidableEq, Repr

/-- The command of an operation and an engine, with its payload or its number where it takes one. -/
def commandOf (op : Op) (alg : Algorithm) (payload : List Byte) (number : Nat) : Instr :=
  match op, alg with
  | .reset, .md2 => .resetMd2
  | .reset, .md4 => .resetMd4
  | .feed, .md2 => .feedMd2 payload
  | .feed, .md4 => .feedMd4 payload
  | .finalize, .md2 => .finalizeMd2
  | .finalize, .md4 => .finalizeMd4
  | .digest, .md2 => .digestMd2 number
  | .digest, .md4 => .digestMd4 number
  | .blocksize, .md2 => .blocksizeMd2
  | .blocksize, .md4 => .blocksizeMd4
  | .digestbits, .md2 => .digestbitsMd2
  | .digestbits, .md4 => .digestbitsMd4

/-- The `FEED` of the given engine. -/
def feedCommand (alg : Algorithm) (payload : List Byte) : Instr := commandOf .feed alg payload 0

/-- Consecutive pieces of at most `maxLen` bytes, in order; no bytes give one empty piece. -/
def pieces : Nat → List Byte → List (List Byte)
  | 0, bytes => [bytes]
  | fuel + 1, bytes =>
    if bytes.length ≤ maxLen then [bytes] else bytes.take maxLen :: pieces fuel (bytes.drop maxLen)

/-- The expansion column of R56. -/
def Pseudo.expand : Pseudo → List Instr
  | .hash alg bytes =>
    commandOf .reset alg [] 0 :: (pieces bytes.length bytes).map (feedCommand alg)
      ++ [commandOf .finalize alg [] 0, commandOf .digest alg [] 16]
  | .feedl alg bytes => (pieces bytes.length bytes).map (feedCommand alg)
  | .nopfeed alg => [feedCommand alg []]

/-! ### Names -/

/-- The operation part of a mnemonic (R47). -/
def Op.text : Op → List Char
  | .reset => ['R', 'E', 'S', 'E', 'T']
  | .feed => ['F', 'E', 'E', 'D']
  | .finalize => ['F', 'I', 'N', 'A', 'L', 'I', 'Z', 'E']
  | .digest => ['D', 'I', 'G', 'E', 'S', 'T']
  | .blocksize => ['B', 'L', 'O', 'C', 'K', 'S', 'I', 'Z', 'E']
  | .digestbits => ['D', 'I', 'G', 'E', 'S', 'T', 'B', 'I', 'T', 'S']

/-- The engine part of a mnemonic (R48). -/
def Algorithm.text : Algorithm → List Char
  | .md2 => ['M', 'D', '2']
  | .md4 => ['M', 'D', '4']

/-- The operation mnemonic, a dot, and the engine (R48). -/
def mnemonicText (op : Op) (alg : Algorithm) : List Char := Op.text op ++ '.' :: Algorithm.text alg

/-- Every mnemonic of the opcode map with what it names. -/
def mnemonicTable : List (List Char × Op × Algorithm) :=
  opcodeRows.map fun r => (mnemonicText r.op r.alg, r.op, r.alg)

/-- The names of the statuses (R54). -/
def Status.text : Status → List Char
  | .ok => ['O', 'K']
  | .insufficientBuffer =>
    ['I', 'n', 's', 'u', 'f', 'f', 'i', 'c', 'i', 'e', 'n', 't', 'B', 'u', 'f', 'f', 'e', 'r', 'E', 'r', 'r', 'o', 'r']
  | .invalidState => ['I', 'n', 'v', 'a', 'l', 'i', 'd', 'S', 't', 'a', 't', 'e', 'E', 'r', 'r', 'o', 'r']
  | .illegalCommand => ['I', 'l', 'l', 'e', 'g', 'a', 'l', 'C', 'o', 'm', 'm', 'a', 'n', 'd']
  | .finalized => ['F', 'i', 'n', 'a', 'l', 'i', 'z', 'e', 'd', 'E', 'r', 'r', 'o', 'r']

/-! ### Numbers -/

/-- The hexadecimal digit of a value below 16, lower case (log 15). -/
def hexDigit (n : Nat) : Char := if n < 10 then Char.ofNat (48 + n) else Char.ofNat (87 + n)

/-- The value of a hexadecimal digit of either case (log 15). -/
def hexValue (c : Char) : Option Nat :=
  if 48 ≤ c.toNat ∧ c.toNat ≤ 57 then some (c.toNat - 48)
  else if 97 ≤ c.toNat ∧ c.toNat ≤ 102 then some (c.toNat - 87)
  else if 65 ≤ c.toNat ∧ c.toNat ≤ 70 then some (c.toNat - 55)
  else none

/-- A byte as two hexadecimal digits. -/
def hexByte (b : Byte) : List Char := [hexDigit (b.toNat / 16), hexDigit (b.toNat % 16)]

/-- Two hexadecimal digits as a byte. -/
def parseHexByte : List Char → Option Byte
  | [h, l] => do
    let hi ← hexValue h
    let lo ← hexValue l
    return BitVec.ofNat 8 (16 * hi + lo)
  | _ => none

/-- A command word as `0x` and eight hexadecimal digits. -/
def hexWord (w : Word) : List Char :=
  '0' :: 'x' :: (List.range 8).map fun k => hexDigit (w.toNat / 16 ^ (7 - k) % 16)

/-- The decimal digits of `n` before `tail`, at most `fuel` of them. -/
def decimalBefore : Nat → Nat → List Char → List Char
  | 0, _, tail => tail
  | fuel + 1, n, tail =>
    if n < 10 then hexDigit n :: tail else decimalBefore fuel (n / 10) (hexDigit (n % 10) :: tail)

/-- A number in decimal. -/
def decimal (n : Nat) : List Char := decimalBefore (n + 1) n []

/-- One more decimal digit of a number read from the left. -/
def parseDigit (acc : Option Nat) (c : Char) : Option Nat :=
  match acc with
  | none => none
  | some n => if 48 ≤ c.toNat ∧ c.toNat ≤ 57 then some (10 * n + (c.toNat - 48)) else none

/-- A decimal number, at least one digit. -/
def parseDecimal : List Char → Option Nat
  | [] => none
  | c :: cs => (c :: cs).foldl parseDigit (some 0)

/-! ### Reading a line (R55) -/

/-- The double quote. -/
def quoteChar : Char := Char.ofNat 34

/-- Everything before the `;` that starts a comment; a `;` between double quotes is text. -/
def stripComment : Bool → List Char → List Char
  | _, [] => []
  | quoted, c :: cs =>
    if c = quoteChar then c :: stripComment (!quoted) cs
    else if c = ';' ∧ quoted = false then []
    else c :: stripComment quoted cs

/-- The parts between spaces, empty parts included. -/
def splitSpaces : List Char → List (List Char)
  | [] => []
  | c :: cs =>
    if c = ' ' then [] :: splitSpaces cs
    else match splitSpaces cs with
      | [] => [[c]]
      | t :: ts => (c :: t) :: ts

/-- The words of a line. -/
def lineWords (l : List Char) : List (List Char) := (splitSpaces l).filter fun t => !t.isEmpty

/-- A printable ASCII character as its code. -/
def asciiByte (c : Char) : Option Byte :=
  if 32 ≤ c.toNat ∧ c.toNat ≤ 126 then some (BitVec.ofNat 8 c.toNat) else none

/-- The text of a quoted operand up to its closing quote, and nothing but spaces after it. -/
def parseQuoted : List Char → Option (List Byte)
  | [] => none
  | c :: cs =>
    if c = quoteChar then (if cs.all (· = ' ') then some [] else none)
    else do
      let b ← asciiByte c
      let rest ← parseQuoted cs
      return b :: rest

/-- Every word as a two-digit byte. -/
def parseHexBytes : List (List Char) → Option (List Byte)
  | [] => some []
  | t :: ts => do
    let b ← parseHexByte t
    let rest ← parseHexBytes ts
    return b :: rest

/-- A byte operand: a quoted string, `none`, `<n> x <hh>`, or two-digit bytes. -/
def parseBytes (l : List Char) : Option (List Byte) :=
  match l.dropWhile (· = ' ') with
  | [] => none
  | c :: cs =>
    if c = quoteChar then parseQuoted cs
    else match lineWords (c :: cs) with
      | [t] => if t = ['n', 'o', 'n', 'e'] then some [] else parseHexBytes [t]
      | [n, x, hh] =>
        if x = ['x'] then do
          let count ← parseDecimal n
          let b ← parseHexByte hh
          return List.replicate count b
        else parseHexBytes [n, x, hh]
      | ts => parseHexBytes ts

/-- The one number of an operand field. -/
def parseNumber (l : List Char) : Option Nat :=
  match lineWords l with
  | [n] => parseDecimal n
  | _ => none

/-- The command of a mnemonic and its operand field; an operand too long for `len` or missing, or one where none
belongs, gives no command. -/
def parseCommand (op : Op) (alg : Algorithm) (operand : List Char) : Option Instr :=
  match op with
  | .feed =>
    match parseBytes operand with
    | some b => if b.length ≤ maxLen then some (feedCommand alg b) else none
    | none => none
  | .digest =>
    match parseNumber operand with
    | some n => if n ≤ maxLen then some (commandOf .digest alg [] n) else none
    | none => none
  | .reset => if lineWords operand = [] then some (commandOf .reset alg [] 0) else none
  | .finalize => if lineWords operand = [] then some (commandOf .finalize alg [] 0) else none
  | .blocksize => if lineWords operand = [] then some (commandOf .blocksize alg [] 0) else none
  | .digestbits => if lineWords operand = [] then some (commandOf .digestbits alg [] 0) else none

/-- The pseudo-command of a mnemonic and its operand field. -/
def parsePseudo (head operand : List Char) (alg : Algorithm) : Option Pseudo :=
  if head = ['H', 'A', 'S', 'H', '.'] ++ Algorithm.text alg then (parseBytes operand).map (.hash alg)
  else if head = ['F', 'E', 'E', 'D', 'L', '.'] ++ Algorithm.text alg then (parseBytes operand).map (.feedl alg)
  else if head = ['N', 'O', 'P', 'F', 'E', 'E', 'D', '.'] ++ Algorithm.text alg then
    if lineWords operand = [] then some (.nopfeed alg) else none
  else none

/-- The commands a line stands for: one for a command, its expansion for a pseudo-command, none for a line of spaces
and comment. -/
def parseLine (line : List Char) : Option (List Instr) :=
  match (stripComment false line).dropWhile (· = ' ') with
  | [] => some []
  | c :: cs =>
    let head := (c :: cs).takeWhile (· ≠ ' ')
    let operand := (c :: cs).dropWhile (· ≠ ' ')
    match mnemonicTable.lookup head with
    | some (op, alg) => (parseCommand op alg operand).map ([·])
    | none =>
      match parsePseudo head operand .md2 with
      | some p => some p.expand
      | none => (parsePseudo head operand .md4).map Pseudo.expand

/-- The commands of a program, line by line. -/
def parseProgram : List (List Char) → Option (List Instr)
  | [] => some []
  | l :: ls => do
    let here ← parseLine l
    let rest ← parseProgram ls
    return here ++ rest

/-! ### Writing a line (R55) -/

/-- Bytes as an operand: `none`, or two-digit bytes with a space before each. -/
def bytesOperand : List Byte → List Char
  | [] => [' ', 'n', 'o', 'n', 'e']
  | b :: bs => (b :: bs).flatMap fun x => ' ' :: hexByte x

/-- The operand field of a command. -/
def Instr.operandText (i : Instr) : List Char :=
  match i.op with
  | .feed => bytesOperand i.payload
  | .digest => ' ' :: decimal i.len
  | .reset => []
  | .finalize => []
  | .blocksize => []
  | .digestbits => []

/-- A command as one line. -/
def Instr.text (i : Instr) : List Char := mnemonicText i.op i.alg ++ Instr.operandText i

/-- The data of a response: hexadecimal digits for bytes, decimal for a number. -/
def ResponseData.text : ResponseData → List Char
  | .none => []
  | .bytes b => ' ' :: b.flatMap hexByte
  | .number n => ' ' :: decimal n.toNat

/-- A response: `-> <st name>` followed by its data. -/
def Response.text (r : Response) : List Char := ['-', '>', ' '] ++ r.status.text ++ r.data.text

/-- A full trace line: the command word, the mnemonic form and the response. -/
def traceLine (i : Instr) (r : Response) : List Char :=
  hexWord (encode i).1 ++ [' ', ' '] ++ Instr.text i ++ [' ', ' '] ++ r.text

end Sys2Proof.Machine
end

