-- ==== Sys2Proof/Machine/Reference.lean ====
section
/-! DEFINITION. The digest of a message as one formula (41_md2_engine.md R91, 42_md4_engine.md R119), with no input
buffer, no counter and no phase: what the engines' commands are to compute. No command calls it. -/

namespace Sys2Proof.Machine

/-- Block `r` of a padded message: its bytes `n * r` to `n * r + n - 1`. -/
def messageBlock (n : Nat) (m : List Byte) (r : Nat) : Vector Byte n :=
  Vector.ofFn fun i => m.getD (n * r + i.val) 0

/-- `m'` of R91: the message and `k = 16 - (n mod 16)` bytes of value `k`. -/
def md2Padded (m : List Byte) : List Byte :=
  let k := 16 - m.length % 16
  m ++ List.replicate k (BitVec.ofNat 8 k)

/-- `COMPRESS2` and `CHECKSUM2` on one block of a message. -/
def md2Chain (m : List Byte) (xc : Vector Byte 48 × Vector Byte 16) (r : Nat) : Vector Byte 48 × Vector Byte 16 :=
  (compress2 xc.1 (messageBlock 16 m r), checksum2 xc.2 (messageBlock 16 m r))

/-- `X` and `C` after the first `q` blocks of a message, from `X = 0`, `C = 0`. -/
def md2Blocks (m : List Byte) (q : Nat) : Vector Byte 48 × Vector Byte 16 :=
  (List.range q).foldl (md2Chain m) (Vector.replicate 48 0, Vector.replicate 16 0)

/-- The MD2 digest of a message (R91): the padded blocks, then the checksum as one more block. -/
def md2Digest (m : List Byte) : List Byte :=
  let m' := md2Padded m
  let xc := md2Blocks m' (m'.length / 16)
  (List.range digestLength).map (arrayRead (compress2 xc.1 xc.2))

/-- `z` of R119 for a message of `n` bytes: the least number with `(n + 1 + z) mod 64 = 56`. -/
def md4Zeros (n : Nat) : Nat := (119 - n % 64) % 64

/-- `m'` of R119: the message, `0x80`, `z` zero bytes and the length in bits as eight little-endian bytes. -/
def md4Padded (m : List Byte) : List Byte :=
  m ++ 0x80 :: List.replicate (md4Zeros m.length) 0x00 ++ lengthBytes (BitVec.ofNat 64 (8 * m.length))

/-- `W4` after the first `q` blocks of a message, from the reset words. -/
def md4Blocks (m : List Byte) (q : Nat) : Vector Word 4 :=
  (List.range q).foldl (fun words r => block4 words (messageBlock 64 m r)) md4InitialWords

/-- The MD4 digest of a message (R119): the padded blocks, then the words little-endian. -/
def md4Digest (m : List Byte) : List Byte :=
  let m' := md4Padded m
  wordsBytes (md4Blocks m' (m'.length / 64))

/-- The digest of a message on the given engine. -/
def digestOf : Algorithm → List Byte → List Byte
  | .md2, m => md2Digest m
  | .md4, m => md4Digest m

end Sys2Proof.Machine
end

