-- ==== Sys2Proof/Safety.lean ====
section
/-! DEFINITION. The terms in which claims speak of runs: a run of commands, the invariants at command boundaries
(10_state.md R27), the lifecycle table (40_interface.md R62), the shape of responses (30_encoding.md R53), the
obligations of the host (70_reset_and_hazards.md R149 to R154), the message of a computation (40_interface.md R76)
and what a successful run is. -/

namespace Sys2Proof.Machine

/-! ### Runs -/

/-- The commands executed one after the other, each to completion (40_interface.md R60). -/
def runCommands : List Instr → State → Host.Outcome State Fault Refusal
  | [], s => .next s
  | i :: is, s =>
    match exec i s with
    | .next t => runCommands is t
    | .fault r => .fault r
    | .refused r => .refused r

/-- The message of a hash computation of the given engine: the payloads of the `FEED` commands to it, one after the
other, of a sequence in which all of them are accepted (40_interface.md R76). -/
def messageOf (alg : Algorithm) (is : List Instr) : List Byte :=
  is.flatMap fun i => if i.alg = alg ∧ i.op = .feed then i.payload else []

/-! ### Invariants -/

/-- What holds of both engines at every command boundary: R27 (a) to (c) of 10_state.md, and R19's count of bits,
which at a boundary stands at `8 * pendingLength` modulo a block's 512 bits while the engine absorbs. -/
structure State.Inv (s : State) : Prop where
  pending2 : s.e2.pendingLength ≤ 15
  pending4 : s.e4.pendingLength ≤ 63
  finalized2 : s.e2.phase = .finalized → s.e2.pendingLength = 0
  finalized4 : s.e4.phase = .finalized → s.e4.pendingLength = 0
  unfaulted2 : s.e2.phase ≠ .faulted
  unfaulted4 : s.e4.phase ≠ .faulted
  bits4 : s.e4.phase = .absorbing → s.e4.totalBitLength.toNat % 512 = 8 * s.e4.pendingLength

/-- R53's table, read over all commands: an error carries no data, and data is sixteen bytes or one of the constants
16, 64 and 128. -/
def Response.wellShaped (r : Response) : Bool :=
  match r.data with
  | .none => true
  | .bytes b => r.status == .ok && b.length == 16
  | .number n => r.status == .ok && (n == 16 || n == 64 || n == 128)

/-! ### The lifecycle table (R62) -/

/-- R62's table: the status a command answers and the phase of its engine afterwards, from the phase before,
whether `pendingLength >= blockSize`, and whether `cap >= 16`. -/
def lifecycle (before : Phase) (overfull room : Bool) (op : Op) : Status × Phase :=
  match op, before with
  | .reset, _ => (.ok, .absorbing)
  | .feed, .absorbing => if overfull then (.invalidState, .faulted) else (.ok, .absorbing)
  | .feed, .finalized => (.finalized, .finalized)
  | .feed, .faulted => (.invalidState, .faulted)
  | .finalize, .absorbing => if overfull then (.invalidState, .faulted) else (.ok, .finalized)
  | .finalize, .finalized => (.finalized, .finalized)
  | .finalize, .faulted => (.invalidState, .faulted)
  | .digest, .absorbing => if room then (.ok, .absorbing) else (.insufficientBuffer, .absorbing)
  | .digest, .finalized => if room then (.ok, .finalized) else (.insufficientBuffer, .finalized)
  | .digest, .faulted => (.invalidState, .faulted)
  | .blocksize, p => (.ok, p)
  | .digestbits, p => (.ok, p)

/-! ### The host's part -/

/-- What the host may issue to an engine in the given phase: it feeds and finalizes only before `FINALIZE` (R149,
R151), and asks for the digest only after it (R150) and with room for sixteen bytes (R154). -/
def hostMay (p : Phase) : Instr → Bool
  | .resetMd2 => true
  | .feedMd2 _ => p == .absorbing
  | .finalizeMd2 => p == .absorbing
  | .digestMd2 cap => p == .finalized && 16 ≤ cap
  | .blocksizeMd2 => true
  | .digestbitsMd2 => true
  | .resetMd4 => true
  | .feedMd4 _ => p == .absorbing
  | .finalizeMd4 => p == .absorbing
  | .digestMd4 cap => p == .finalized && 16 ≤ cap
  | .blocksizeMd4 => true
  | .digestbitsMd4 => true

/-- The phase the host counts on after a command it may issue. -/
def hostPhase (p : Phase) (op : Op) : Phase :=
  match op with
  | .reset => .absorbing
  | .finalize => .finalized
  | .feed => p
  | .digest => p
  | .blocksize => p
  | .digestbits => p

/-- A sequence of commands that keeps the host's obligations, from the given phases of `E2` and `E4`. -/
def hostProper : Phase → Phase → List Instr → Bool
  | _, _, [] => true
  | p2, p4, i :: is =>
    match i.alg with
    | .md2 => hostMay p2 i && hostProper (hostPhase p2 i.op) p4 is
    | .md4 => hostMay p4 i && hostProper p2 (hostPhase p4 i.op) is

/-- The responses of 93_implementation_defined.md U1, U3 and U4, which mean that the host's program went wrong: a
command after `FINALIZE`, or the contract violation behind `InvalidStateError`. -/
def Response.hostFault (r : Response) : Bool :=
  r.status == .finalized || r.status == .invalidState

/-- A run is successful so far when no response blames the host's program (93_implementation_defined.md U1, U3,
U4; log 6). -/
def State.successful (s : State) : Bool := s.responses.all fun r => !r.hostFault

end Sys2Proof.Machine
end

