-- ==== Sys2Proof/Certificates/Slice0/Obligations.lean ====
section
/-! DEFINITION. The statements for the provers. Each docstring names the rule of spec/ the statement formalises. -/

open Sys2Proof Sys2Proof.Machine

/-! ### The command word (30_encoding.md) -/

/-- Decoding what the encoder writes gives the command back, with every operand, and leaves exactly the rest of the
payload stream (30_encoding.md R46 to R50). -/
def Obligations.DecodeOfEncodeIsTheCommand : Prop :=
  ∀ (i : Instr) (rest : List Byte), i.wellFormed = true →
    decode (encode i).1 ((encode i).2 ++ rest) = .ok (i, rest)

/-- A decoded command is well formed, and its encoding is the word and the payload bytes it was read from: each
command has exactly one pattern (30_encoding.md R52). -/
def Obligations.EncodeOfDecodeIsTheWord : Prop :=
  ∀ (w : Word) (stream rest : List Byte) (i : Instr), decode w stream = .ok (i, rest) →
    i.wellFormed = true ∧ (encode i).1 = w ∧ (encode i).2 ++ rest = stream

/-- R57: a word is the command of a row of the opcode map exactly when `W AND mask = match`, with `len = W[15:0]` as
its operand; words matched by no row are illegal. A matched `FEED` word whose payload is not whole gives no command
yet (20_memory.md R33). -/
def Obligations.DecodeFollowsTheOpcodeMap : Prop :=
  ∀ (w : Word) (stream : List Byte),
    (∀ r ∈ opcodeRows, w &&& r.mask = r.pattern →
      (r.op = .feed ∧ stream.length < lenField w ∧ decode w stream = .error .payloadIncomplete) ∨
      ∃ i rest, decode w stream = .ok (i, rest) ∧ i.op = r.op ∧ i.alg = r.alg ∧ i.len = lenField w) ∧
    (∀ i rest, decode w stream = .ok (i, rest) →
      ∃ r ∈ opcodeRows, w &&& r.mask = r.pattern ∧ r.op = i.op ∧ r.alg = i.alg) ∧
    ((∀ r ∈ opcodeRows, w &&& r.mask ≠ r.pattern) →
      ∃ e, e ≠ Reject.payloadIncomplete ∧ decode w stream = .error e)

/-- The twelve patterns are pairwise disjoint (30_encoding.md R50). -/
def Obligations.OpcodePatternsAreDisjoint : Prop :=
  ∀ (w : Word), ∀ r ∈ opcodeRows, ∀ r' ∈ opcodeRows,
    w &&& r.mask = r.pattern → w &&& r'.mask = r'.pattern → r = r'

/-- Words written out from R57's patterns decode to the commands they stand for, and words of R51 to nothing. -/
def Obligations.SampleWordsDecode : Prop :=
  decode 0b00000000000000000000000000000000#32 [] = .ok (.resetMd2, []) ∧
  decode 0b00010001000000000000000000000010#32 [7, 8, 9] = .ok (.feedMd4 [7, 8], [9]) ∧
  decode 0b00100000000000000000000000000000#32 [] = .ok (.finalizeMd2, []) ∧
  decode 0b00110001000000001111111111111111#32 [] = .ok (.digestMd4 65535, []) ∧
  decode 0b01000001000000000000000000000000#32 [] = .ok (.blocksizeMd4, []) ∧
  decode 0b01010000000000000000000000000000#32 [] = .ok (.digestbitsMd2, []) ∧
  decode 0b01100000000000000000000000000000#32 [] = .error .reservedOp ∧
  decode 0b00010010000000000000000000000000#32 [] = .error .reservedAlg ∧
  decode 0b00000000000000010000000000000000#32 [] = .error .reservedBits ∧
  decode 0b00100000000000000000000000000001#32 [] = .error .nonzeroLen

/-- The codes of the statuses (30_encoding.md R54) and of the phases (10_state.md R15, R21). -/
def Obligations.StatusAndPhaseCodes : Prop :=
  Status.ok.code = 0 ∧ Status.insufficientBuffer.code = 1 ∧ Status.invalidState.code = 2 ∧
  Status.illegalCommand.code = 3 ∧ Status.finalized.code = 4 ∧
  Phase.absorbing.code = 0 ∧ Phase.finalized.code = 1 ∧ Phase.faulted.code = 2

/-! ### The step (40_interface.md) -/

/-- A step runs the decoded command: with a word at the head of the command port that decodes, the step is `exec` of
the command at the state without the word and the payload bytes it took. -/
def Obligations.StepRunsTheDecodedCommand : Prop :=
  ∀ (s : State) (w : Word) (ws : List Word) (i : Instr) (rest : List Byte),
    s.commandWords = w :: ws → decode w s.payloadStream = .ok (i, rest) →
    step s = exec i { s with commandWords := ws, payloadStream := rest }

/-- R129: an illegal word, one with a reserved `op`, a reserved `alg`, a nonzero `rsv`, or a nonzero `len` where it
must be zero, is answered with status 3 and no data, and nothing else of the machine changes: no payload is
consumed. -/
def Obligations.IllegalWordsAnswerIllegalCommand : Prop :=
  ∀ (s : State) (w : Word) (ws : List Word), s.commandWords = w :: ws →
    (5 < opField w ∨ 1 < algField w ∨ rsvField w ≠ 0 ∨ (opField w ∈ [0, 2, 4, 5] ∧ lenField w ≠ 0)) →
    step s = .next { s with commandWords := ws, responses := s.responses ++ [⟨.illegalCommand, .none⟩] } ∧
    Status.illegalCommand.code = 3

/-- The model's choice (log 2, log 3), from "Between commands nothing happens" (40_interface.md R60) and "A command
is executed only once its whole payload has been delivered" (20_memory.md R33): a step with no command word, or with
a `FEED` word whose payload is not whole, changes nothing. -/
def Obligations.StepWithoutAWholeCommandChangesNothing : Prop :=
  ∀ s : State,
    (s.commandWords = [] → step s = .next s) ∧
    (∀ w ws, s.commandWords = w :: ws → opField w = 1 → algField w ≤ 1 → rsvField w = 0 →
      s.payloadStream.length < lenField w → step s = .next s)

/-- Every command completes, with a response (70_reset_and_hazards.md R156, "Every command terminates"; 60_exceptions.md
R125, R133). The second conjunct, that every step answers a next state, is in part the model's choice: with no command
word on the port (log 2), or with a `FEED` word whose payload is not whole (log 3), a step leaves the state as it is;
the rules named speak of commands only. -/
def Obligations.EveryCommandAndStepCompletes : Prop :=
  (∀ (i : Instr) (s : State), ∃ t, exec i s = .next t ∧ ∃ r, t.responses = s.responses ++ [r] ∧
    t.commandWords = s.commandWords ∧ t.payloadStream = s.payloadStream) ∧
  ∀ s : State, ∃ t, step s = .next t

/-- The order of execution is the order in which the host issues commands (40_interface.md R60): running the machine
on issued well-formed commands executes them one after the other, and leaves the command port as it was. -/
def Obligations.IssuedCommandsRunInOrder : Prop :=
  ∀ (is : List Instr) (s : State), (∀ i ∈ is, i.wellFormed = true) → s.commandWords = [] → s.payloadStream = [] →
    Sys2Proof.core.run is.length (s.issue is) = runCommands is s

/-! ### Reset (10_state.md R29, 70_reset_and_hazards.md) -/

/-- R145: after power-on reset both engines are in the state of R29's table: everything zero, except `E4.words`, which
hold the four MD4 initial constants, and both phases `ABSORBING`. -/
def Obligations.PowerOnResetState : Prop :=
  (∀ i < 16, arrayRead State.reset.e2.checksum i = 0) ∧
  (∀ i < 48, arrayRead State.reset.e2.transformBuffer i = 0) ∧
  (∀ i < 16, arrayRead State.reset.e2.pendingBlock i = 0) ∧
  State.reset.e2.pendingLength = 0 ∧ State.reset.e2.phase = .absorbing ∧
  arrayRead State.reset.e4.words 0 = 0x67452301 ∧ arrayRead State.reset.e4.words 1 = 0xEFCDAB89 ∧
  arrayRead State.reset.e4.words 2 = 0x98BADCFE ∧ arrayRead State.reset.e4.words 3 = 0x10325476 ∧
  (∀ i < 64, arrayRead State.reset.e4.pendingBlock i = 0) ∧
  State.reset.e4.pendingLength = 0 ∧ State.reset.e4.totalBitLength = 0 ∧ State.reset.e4.phase = .absorbing

/-- R85: `RESET.MD2` completes from every state, with every piece of `E2` at its reset value and nothing else
changed, and answers `OK` with no data. -/
def Obligations.ResetMd2ClearsTheEngine : Prop :=
  ∀ s : State,
    exec .resetMd2 s = .next
      { s with
        e2 :=
          { checksum := Vector.replicate 16 0x00
            transformBuffer := Vector.replicate 48 0x00
            pendingBlock := Vector.replicate 16 0x00
            pendingLength := 0
            phase := .absorbing }
        responses := s.responses ++ [⟨.ok, .none⟩] }

/-- R113: `RESET.MD4` completes from every state, with every piece of `E4` at its reset value and nothing else
changed, and answers `OK` with no data. -/
def Obligations.ResetMd4ClearsTheEngine : Prop :=
  ∀ s : State,
    exec .resetMd4 s = .next
      { s with
        e4 :=
          { words := #v[0x67452301, 0xEFCDAB89, 0x98BADCFE, 0x10325476]
            pendingBlock := Vector.replicate 64 0x00
            pendingLength := 0
            totalBitLength := 0
            phase := .absorbing }
        responses := s.responses ++ [⟨.ok, .none⟩] }

/-- R146: `RESET.MD2` and `RESET.MD4` bring their engine to the state power-on reset gives it, from any phase, and
leave the other engine alone. -/
def Obligations.ResetCommandEqualsPowerOnReset : Prop :=
  ∀ s : State,
    (∃ t, exec .resetMd2 s = .next t ∧ t.e2 = State.reset.e2 ∧ t.e4 = s.e4) ∧
    (∃ t, exec .resetMd4 s = .next t ∧ t.e4 = State.reset.e4 ∧ t.e2 = s.e2)

/-! ### The MD2 engine (41_md2_engine.md) -/

/-- `S` is a permutation, every value 0 to 255 occurs exactly once; and the spot values of 41_md2_engine.md R80. -/
def Obligations.SubstitutionTableIsAPermutation : Prop :=
  (∀ v : Byte, ∃ t, sBox t = v ∧ ∀ t', sBox t' = v → t' = t) ∧
  sBox 0x00 = 0x29 ∧ sBox 0x01 = 0x2e ∧ sBox 0x10 = 0x62 ∧ sBox 0x29 = 0x42 ∧ sBox 0xdd = 0x00 ∧ sBox 0xff = 0x14

/-- R81: `COMPRESS2`. There are rows `x 0` to `x 18` of 48 bytes and carries `t 0` to `t 18` with: row 0 as the two
loading loops leave `X`; `t 0 = 0`; in round `j` each byte is the old one exclusive-ORed with the table entry of the
byte just written (of `t j` for byte 0); `t (j + 1)` is the last byte written plus `j`, modulo 256; and row 18 is
what `X` holds afterwards. On the engine nothing but `X` changes. -/
def Obligations.Compress2FollowsItsRounds : Prop :=
  ∀ e : Md2Engine,
    (∃ (x : Nat → Nat → Byte) (t : Nat → Byte),
      (∀ i < 16, x 0 i = arrayRead e.transformBuffer i) ∧
      (∀ i < 16, x 0 (16 + i) = arrayRead e.pendingBlock i) ∧
      (∀ i < 16, x 0 (32 + i) = x 0 i ^^^ x 0 (16 + i)) ∧
      t 0 = 0 ∧
      (∀ j < 18, ∀ i < 48, x (j + 1) i = x j i ^^^ sBox (if i = 0 then t j else x (j + 1) (i - 1))) ∧
      (∀ j < 18, t (j + 1) = x (j + 1) 47 + BitVec.ofNat 8 j) ∧
      (∀ i < 48, arrayRead e.compress.transformBuffer i = x 18 i)) ∧
    e.compress = { e with transformBuffer := e.compress.transformBuffer }

/-- R82: `CHECKSUM2`. Each byte of `C` is the old one exclusive-ORed with the table entry of `PB[i] XOR L`, where `L`
is the byte just written, and for byte 0 the old `C[15]`. On the engine nothing but `C` changes. -/
def Obligations.Checksum2FollowsItsBytes : Prop :=
  ∀ e : Md2Engine,
    (∀ i < 16, arrayRead e.updateChecksum.checksum i =
      arrayRead e.checksum i ^^^ sBox (arrayRead e.pendingBlock i ^^^
        (if i = 0 then arrayRead e.checksum 15 else arrayRead e.updateChecksum.checksum (i - 1)))) ∧
    e.updateChecksum = { e with checksum := e.updateChecksum.checksum }

/-- Processing a block is `COMPRESS2` then `CHECKSUM2`, and the result is the same in either order (41_md2_engine.md
R83, which marks the second clause as derived from R81 and R82). -/
def Obligations.Block2IsTheSameInEitherOrder : Prop :=
  ∀ e : Md2Engine, e.block = e.compress.updateChecksum ∧ e.block = e.updateChecksum.compress

/-- R84: `ABSORB2(b)` from `PL <= 15`: the byte at index `PL`, `PL` one more, and at 16 the block processed and
`PL = 0`; afterwards `PL <= 15`. -/
def Obligations.Absorb2TakesOneByte : Prop :=
  ∀ (e : Md2Engine) (b : Byte), e.pendingLength ≤ 15 →
    (e.pendingLength < 15 →
      e.absorb b =
        { e with
          pendingBlock := arrayWrite e.pendingBlock e.pendingLength b
          pendingLength := e.pendingLength + 1 }) ∧
    (e.pendingLength = 15 →
      e.absorb b =
        { Md2Engine.block { e with pendingBlock := arrayWrite e.pendingBlock 15 b } with pendingLength := 0 }) ∧
    (e.absorb b).pendingLength ≤ 15

/-- R86: `FEED.MD2` in each phase. Accepted, it absorbs its payload bytes in order and answers `OK`; rejected, it
answers the status of the first check that fails and leaves `E2` as it is, but for `phase <- FAULTED` when
`PL >= 16`. -/
def Obligations.FeedMd2InEveryPhase : Prop :=
  ∀ (p : List Byte) (s : State),
    (s.e2.phase = .faulted →
      exec (.feedMd2 p) s = .next { s with responses := s.responses ++ [⟨.invalidState, .none⟩] }) ∧
    (s.e2.phase = .finalized →
      exec (.feedMd2 p) s = .next { s with responses := s.responses ++ [⟨.finalized, .none⟩] }) ∧
    (s.e2.phase = .absorbing → 16 ≤ s.e2.pendingLength →
      exec (.feedMd2 p) s = .next
        { s with e2 := { s.e2 with phase := .faulted }, responses := s.responses ++ [⟨.invalidState, .none⟩] }) ∧
    (s.e2.phase = .absorbing → s.e2.pendingLength < 16 →
      exec (.feedMd2 p) s = .next
        { s with e2 := p.foldl Md2Engine.absorb s.e2, responses := s.responses ++ [⟨.ok, .none⟩] })

/-- The buffer after an accepted `FEED.MD2` (40_interface.md R64, 41_md2_engine.md R86): `PL` is `(p + len) mod 16`;
a payload that does not fill the block changes only the bytes it is stored at, `X` and `C` staying as they are; an
empty payload changes nothing. -/
def Obligations.FeedMd2BufferEffect : Prop :=
  ∀ (p : List Byte) (s : State), s.e2.phase = .absorbing → s.e2.pendingLength < 16 →
    ∃ t, exec (.feedMd2 p) s = .next t ∧
      t.e2.pendingLength = (s.e2.pendingLength + p.length) % 16 ∧ t.e2.phase = .absorbing ∧ t.e4 = s.e4 ∧
      (s.e2.pendingLength + p.length < 16 →
        t.e2.transformBuffer = s.e2.transformBuffer ∧ t.e2.checksum = s.e2.checksum ∧
        (∀ k < p.length, arrayRead t.e2.pendingBlock (s.e2.pendingLength + k) = p.getD k 0) ∧
        ∀ i, (i < s.e2.pendingLength ∨ s.e2.pendingLength + p.length ≤ i) →
          arrayRead t.e2.pendingBlock i = arrayRead s.e2.pendingBlock i) ∧
      (p = [] → t.e2 = s.e2)

/-- R87: `FINALIZE.MD2` in each phase. Accepted, it compresses and checksums the pending bytes followed by
`k = 16 - PL` bytes of value `k`, then compresses the checksum as one more block; `PL = 0`, `FINALIZED`, `OK`. -/
def Obligations.FinalizeMd2InEveryPhase : Prop :=
  ∀ s : State,
    (s.e2.phase = .faulted →
      exec .finalizeMd2 s = .next { s with responses := s.responses ++ [⟨.invalidState, .none⟩] }) ∧
    (s.e2.phase = .finalized →
      exec .finalizeMd2 s = .next { s with responses := s.responses ++ [⟨.finalized, .none⟩] }) ∧
    (s.e2.phase = .absorbing → 16 ≤ s.e2.pendingLength →
      exec .finalizeMd2 s = .next
        { s with e2 := { s.e2 with phase := .faulted }, responses := s.responses ++ [⟨.invalidState, .none⟩] }) ∧
    (s.e2.phase = .absorbing → s.e2.pendingLength < 16 →
      ∃ pb : Vector Byte 16,
        (∀ i < 16, arrayRead pb i =
          if i < s.e2.pendingLength then arrayRead s.e2.pendingBlock i
          else BitVec.ofNat 8 (16 - s.e2.pendingLength)) ∧
        exec .finalizeMd2 s = .next
          { s with
            e2 :=
              { transformBuffer := compress2 (compress2 s.e2.transformBuffer pb) (checksum2 s.e2.checksum pb)
                checksum := checksum2 s.e2.checksum pb
                pendingBlock := checksum2 s.e2.checksum pb
                pendingLength := 0
                phase := .finalized }
            responses := s.responses ++ [⟨.ok, .none⟩] })

/-- `DIGEST.MD2` in each phase, for every capacity (41_md2_engine.md R88). After `FINALIZE` it answers
`X[0], ..., X[15]`; before it, sixteen bytes the statement says nothing of. No engine state changes in any case. That
the counter `draws2` of the free bytes moves on by sixteen in the last clause is the model's choice (log 5) and no word
of R88. -/
def Obligations.DigestMd2InEveryPhase : Prop :=
  ∀ (cap : Nat) (s : State),
    (s.e2.phase = .faulted →
      exec (.digestMd2 cap) s = .next { s with responses := s.responses ++ [⟨.invalidState, .none⟩] }) ∧
    (s.e2.phase ≠ .faulted → cap < 16 →
      exec (.digestMd2 cap) s = .next { s with responses := s.responses ++ [⟨.insufficientBuffer, .none⟩] }) ∧
    (s.e2.phase = .finalized → 16 ≤ cap →
      ∃ d : List Byte, d.length = 16 ∧ (∀ i < 16, d.getD i 0 = arrayRead s.e2.transformBuffer i) ∧
        exec (.digestMd2 cap) s = .next { s with responses := s.responses ++ [⟨.ok, .bytes d⟩] }) ∧
    (s.e2.phase = .absorbing → 16 ≤ cap →
      ∃ d : List Byte, d.length = 16 ∧
        exec (.digestMd2 cap) s = .next
          { s with draws2 := s.draws2 + 16, responses := s.responses ++ [⟨.ok, .bytes d⟩] })

/-- R89, R90, R117, R118: the accessors answer their constant as a 32-bit number, in every phase, and change nothing
else. -/
def Obligations.AccessorsAnswerTheirConstants : Prop :=
  ∀ s : State,
    exec .blocksizeMd2 s = .next { s with responses := s.responses ++ [⟨.ok, .number 16⟩] } ∧
    exec .digestbitsMd2 s = .next { s with responses := s.responses ++ [⟨.ok, .number 128⟩] } ∧
    exec .blocksizeMd4 s = .next { s with responses := s.responses ++ [⟨.ok, .number 64⟩] } ∧
    exec .digestbitsMd4 s = .next { s with responses := s.responses ++ [⟨.ok, .number 128⟩] }

/-! ### The MD4 engine (42_md4_engine.md) -/

/-- Bit by bit (42_md4_engine.md R101 to R103), `f` selects the bit of `y` where `x` has a 1 and of `z` where it has a 0, `g` is the
majority of the three bits and `h` their parity; and `f` and `g` equal the other forms that the rules mark as derived. -/
def Obligations.RoundFunctionsBitByBit : Prop :=
  ∀ x y z : Word,
    (∀ i < 32, (md4F x y z).getLsbD i = if x.getLsbD i then y.getLsbD i else z.getLsbD i) ∧
    md4F x y z = (x &&& y) ||| (~~~x &&& z) ∧
    (∀ i < 32, (md4G x y z).getLsbD i =
      decide (2 ≤ (x.getLsbD i).toNat + (y.getLsbD i).toNat + (z.getLsbD i).toNat)) ∧
    md4G x y z = (x &&& y) ||| (x &&& z) ||| (y &&& z) ∧
    (∀ i < 32, (md4H x y z).getLsbD i =
      decide (((x.getLsbD i).toNat + (y.getLsbD i).toNat + (z.getLsbD i).toNat) % 2 = 1))

/-- R107, R108, R109: the function and the constant of each round, and of every step the target, the word index `k_n`
and the rotation amount `s_n`, by the rules' formulas: `k_n` is `i` in round 1, `4 * (i mod 4) + floor(i / 4)` in round
2, the bits of `i` reversed in round 3. -/
def Obligations.StepTablesFollowTheirFormulas : Prop :=
  (∀ x y z : Word, md4RoundFunction 1 x y z = md4F x y z ∧ md4RoundFunction 2 x y z = md4G x y z ∧
    md4RoundFunction 3 x y z = md4H x y z) ∧
  md4Additive 1 = 0 ∧ md4Additive 2 = 0x5A827999 ∧ md4Additive 3 = 0x6ED9EBA1 ∧
  ∀ i < 16,
    md4RoundOf i = 1 ∧ md4RoundOf (16 + i) = 2 ∧ md4RoundOf (32 + i) = 3 ∧
    (∀ r < 3, md4Target (16 * r + i) = [0, 3, 2, 1].getD (i % 4) 0) ∧
    md4WordIndex i = i ∧ md4Amount i = [3, 7, 11, 19].getD (i % 4) 0 ∧
    md4WordIndex (16 + i) = 4 * (i % 4) + i / 4 ∧ md4Amount (16 + i) = [3, 5, 9, 13].getD (i % 4) 0 ∧
    md4WordIndex (32 + i) = 8 * (i % 2) + 4 * (i / 2 % 2) + 2 * (i / 4 % 2) + i / 8 ∧
    md4Amount (32 + i) = [3, 9, 11, 15].getD (i % 4) 0

/-- R106: step `n` replaces the working word at `ti = (4 - (i mod 4)) mod 4` by the rotated sum of its old value, the
round function of the three words after it, the schedule word and the round's constant, all modulo 2^32, and leaves
the three other words. -/
def Obligations.Step4ReplacesOneWord : Prop :=
  ∀ (xw : Vector Word 16) (v : Vector Word 4), ∀ n < 48, ∀ ti, ti = (4 - n % 16 % 4) % 4 →
    arrayRead (step4 xw v n) ti =
      (arrayRead v ti +
        (if n < 16 then md4F (arrayRead v ((ti + 1) % 4)) (arrayRead v ((ti + 2) % 4)) (arrayRead v ((ti + 3) % 4))
         else if n < 32 then
           md4G (arrayRead v ((ti + 1) % 4)) (arrayRead v ((ti + 2) % 4)) (arrayRead v ((ti + 3) % 4))
         else md4H (arrayRead v ((ti + 1) % 4)) (arrayRead v ((ti + 2) % 4)) (arrayRead v ((ti + 3) % 4))) +
        arrayRead xw (md4WordIndex n) +
        (if n < 16 then 0 else if n < 32 then 0x5A827999 else 0x6ED9EBA1)).rotateLeft (md4Amount n) ∧
    ∀ q < 4, q ≠ ti → arrayRead (step4 xw v n) q = arrayRead v q

/-- R110 with R105: `BLOCK4`. The schedule words are the block's bytes four by four, the lowest index least
significant; there are working words `v 0` to `v 48` with `v 0` the state words and `v (n + 1)` step `n` of `v n`; the
new state words are the old ones plus `v 48`, modulo 2^32. On the engine nothing but `W4` changes. -/
def Obligations.Block4FollowsItsSteps : Prop :=
  ∀ e : Md4Engine,
    (∃ (xw : Vector Word 16) (v : Nat → Vector Word 4),
      (∀ k < 16, (arrayRead xw k).toNat =
        (arrayRead e.pendingBlock (4 * k)).toNat + 2 ^ 8 * (arrayRead e.pendingBlock (4 * k + 1)).toNat +
        2 ^ 16 * (arrayRead e.pendingBlock (4 * k + 2)).toNat +
        2 ^ 24 * (arrayRead e.pendingBlock (4 * k + 3)).toNat) ∧
      v 0 = e.words ∧ (∀ n < 48, v (n + 1) = step4 xw (v n) n) ∧
      (∀ q < 4, arrayRead e.block.words q = arrayRead e.words q + arrayRead (v 48) q)) ∧
    e.block = { e with words := e.block.words }

/-- R37, and the byte order of R36: the length field and the digest are little-endian: byte `i` of the field is bits `8i + 7` to `8i` of the
count, and digest byte `4i + b` is bits `8b + 7` to `8b` of word `i`. -/
def Obligations.LengthAndDigestAreLittleEndian : Prop :=
  (∀ bits : DWord, (lengthBytes bits).length = 8 ∧
    ∀ i < 8, ((lengthBytes bits).getD i 0).toNat = bits.toNat / 2 ^ (8 * i) % 2 ^ 8) ∧
  ∀ e : Md4Engine, e.digestBytes.length = 16 ∧
    ∀ i < 4, ∀ b < 4,
      (e.digestBytes.getD (4 * i + b) 0).toNat = (arrayRead e.words i).toNat / 2 ^ (8 * b) % 2 ^ 8

/-- R111, R112: `ABSORB4(b)` and `PADABSORB4(b)` from `PL <= 63`: the byte at index `PL`, `PL` one more, and at 64 the
block processed and `PL = 0`; `ABSORB4` adds 8 to the bit count modulo 2^64 and `PADABSORB4` leaves it. -/
def Obligations.Absorb4AndPadAbsorb4TakeOneByte : Prop :=
  ∀ (e : Md4Engine) (b : Byte), e.pendingLength ≤ 63 →
    (e.pendingLength < 63 →
      e.padAbsorb b =
        { e with
          pendingBlock := arrayWrite e.pendingBlock e.pendingLength b
          pendingLength := e.pendingLength + 1 }) ∧
    (e.pendingLength = 63 →
      e.padAbsorb b =
        { e with
          words := block4 e.words (arrayWrite e.pendingBlock 63 b)
          pendingBlock := arrayWrite e.pendingBlock 63 b
          pendingLength := 0 }) ∧
    e.absorb b = { e.padAbsorb b with totalBitLength := e.totalBitLength + 8 } ∧
    (e.absorb b).pendingLength ≤ 63

/-- R114: `FEED.MD4` in each phase, as R86 for `E2`. -/
def Obligations.FeedMd4InEveryPhase : Prop :=
  ∀ (p : List Byte) (s : State),
    (s.e4.phase = .faulted →
      exec (.feedMd4 p) s = .next { s with responses := s.responses ++ [⟨.invalidState, .none⟩] }) ∧
    (s.e4.phase = .finalized →
      exec (.feedMd4 p) s = .next { s with responses := s.responses ++ [⟨.finalized, .none⟩] }) ∧
    (s.e4.phase = .absorbing → 64 ≤ s.e4.pendingLength →
      exec (.feedMd4 p) s = .next
        { s with e4 := { s.e4 with phase := .faulted }, responses := s.responses ++ [⟨.invalidState, .none⟩] }) ∧
    (s.e4.phase = .absorbing → s.e4.pendingLength < 64 →
      exec (.feedMd4 p) s = .next
        { s with e4 := p.foldl Md4Engine.absorb s.e4, responses := s.responses ++ [⟨.ok, .none⟩] })

/-- The buffer and the bit count after an accepted `FEED.MD4` (40_interface.md R64, 42_md4_engine.md R114): `PL` is
`(p + len) mod 64`, `TBL` grows by `8 * len` modulo 2^64; a payload that does not fill the block changes only the bytes
it is stored at; an empty payload changes nothing, not even `TBL`. -/
def Obligations.FeedMd4BufferEffect : Prop :=
  ∀ (p : List Byte) (s : State), s.e4.phase = .absorbing → s.e4.pendingLength < 64 →
    ∃ t, exec (.feedMd4 p) s = .next t ∧
      t.e4.pendingLength = (s.e4.pendingLength + p.length) % 64 ∧ t.e4.phase = .absorbing ∧ t.e2 = s.e2 ∧
      t.e4.totalBitLength.toNat = (s.e4.totalBitLength.toNat + 8 * p.length) % 2 ^ 64 ∧
      (s.e4.pendingLength + p.length < 64 →
        t.e4.words = s.e4.words ∧
        (∀ k < p.length, arrayRead t.e4.pendingBlock (s.e4.pendingLength + k) = p.getD k 0) ∧
        ∀ i, (i < s.e4.pendingLength ∨ s.e4.pendingLength + p.length ≤ i) →
          arrayRead t.e4.pendingBlock i = arrayRead s.e4.pendingBlock i) ∧
      (p = [] → t.e4 = s.e4)

/-- R115: `FINALIZE.MD4` in each phase. Accepted with `p = PL <= 55`, it processes one block: the pending bytes,
`0x80`, zeros to index 55, the length in bits little-endian. With `p >= 56` it processes two: the pending bytes,
`0x80` and zeros; then 56 zeros and the length. The bit count stays; `PL = 0`, `FINALIZED`, `OK`. -/
def Obligations.FinalizeMd4InEveryPhase : Prop :=
  ∀ s : State,
    (s.e4.phase = .faulted →
      exec .finalizeMd4 s = .next { s with responses := s.responses ++ [⟨.invalidState, .none⟩] }) ∧
    (s.e4.phase = .finalized →
      exec .finalizeMd4 s = .next { s with responses := s.responses ++ [⟨.finalized, .none⟩] }) ∧
    (s.e4.phase = .absorbing → 64 ≤ s.e4.pendingLength →
      exec .finalizeMd4 s = .next
        { s with e4 := { s.e4 with phase := .faulted }, responses := s.responses ++ [⟨.invalidState, .none⟩] }) ∧
    (s.e4.phase = .absorbing → s.e4.pendingLength ≤ 55 →
      ∃ pb : Vector Byte 64,
        (∀ i < 64, arrayRead pb i =
          if i < s.e4.pendingLength then arrayRead s.e4.pendingBlock i
          else if i = s.e4.pendingLength then 0x80
          else if i < 56 then 0x00
          else (lengthBytes s.e4.totalBitLength).getD (i - 56) 0) ∧
        exec .finalizeMd4 s = .next
          { s with
            e4 :=
              { words := block4 s.e4.words pb
                pendingBlock := pb
                pendingLength := 0
                totalBitLength := s.e4.totalBitLength
                phase := .finalized }
            responses := s.responses ++ [⟨.ok, .none⟩] }) ∧
    (s.e4.phase = .absorbing → 56 ≤ s.e4.pendingLength → s.e4.pendingLength < 64 →
      ∃ pb pb' : Vector Byte 64,
        (∀ i < 64, arrayRead pb i =
          if i < s.e4.pendingLength then arrayRead s.e4.pendingBlock i
          else if i = s.e4.pendingLength then 0x80
          else 0x00) ∧
        (∀ i < 64, arrayRead pb' i =
          if i < 56 then 0x00 else (lengthBytes s.e4.totalBitLength).getD (i - 56) 0) ∧
        exec .finalizeMd4 s = .next
          { s with
            e4 :=
              { words := block4 (block4 s.e4.words pb) pb'
                pendingBlock := pb'
                pendingLength := 0
                totalBitLength := s.e4.totalBitLength
                phase := .finalized }
            responses := s.responses ++ [⟨.ok, .none⟩] })

/-- `DIGEST.MD4` in each phase, for every capacity (42_md4_engine.md R116), as the statement for `E2`; after `FINALIZE`
it answers the four words little-endian in index order. That the counter `draws4` of the free bytes moves on by sixteen
in the last clause is the model's choice (log 5) and no word of R116. -/
def Obligations.DigestMd4InEveryPhase : Prop :=
  ∀ (cap : Nat) (s : State),
    (s.e4.phase = .faulted →
      exec (.digestMd4 cap) s = .next { s with responses := s.responses ++ [⟨.invalidState, .none⟩] }) ∧
    (s.e4.phase ≠ .faulted → cap < 16 →
      exec (.digestMd4 cap) s = .next { s with responses := s.responses ++ [⟨.insufficientBuffer, .none⟩] }) ∧
    (s.e4.phase = .finalized → 16 ≤ cap →
      ∃ d : List Byte, d.length = 16 ∧
        (∀ q < 4, ∀ b < 4, d.getD (4 * q + b) 0 = (arrayRead s.e4.words q).extractLsb' (8 * b) 8) ∧
        exec (.digestMd4 cap) s = .next { s with responses := s.responses ++ [⟨.ok, .bytes d⟩] }) ∧
    (s.e4.phase = .absorbing → 16 ≤ cap →
      ∃ d : List Byte, d.length = 16 ∧
        exec (.digestMd4 cap) s = .next
          { s with draws4 := s.draws4 + 16, responses := s.responses ++ [⟨.ok, .bytes d⟩] })

/-! ### The interface (40_interface.md, 60_exceptions.md) -/

/-- R62: the lifecycle table. Every command answers the status, and leaves its engine in the phase, that the table
gives for the phase before, `pendingLength >= blockSize` and `cap >= 16`; a `DIGEST` with status `OK` carries the
digest in `FINALIZED` and some sixteen bytes in `ABSORBING`. -/
def Obligations.CommandsFollowTheLifecycleTable : Prop :=
  ∀ (i : Instr) (s : State), ∃ t r, exec i s = .next t ∧ t.responses = s.responses ++ [r] ∧
    (r.status, phaseOf i.alg t) =
      lifecycle (phaseOf i.alg s) (decide (blockSize i.alg ≤ pendingLengthOf i.alg s)) (decide (16 ≤ i.len)) i.op ∧
    (i.op = .digest → 16 ≤ i.len → phaseOf i.alg s = .finalized →
      r.data = .bytes (match i.alg with | .md2 => s.e2.digestBytes | .md4 => s.e4.digestBytes)) ∧
    (i.op = .digest → 16 ≤ i.len → phaseOf i.alg s = .absorbing → ∃ d, d.length = 16 ∧ r.data = .bytes d)

/-- R71: a command that ends in an error status carries no data and changes no state of either engine, with one
exception: `InvalidStateError` raised by check 6 of R61 (the engine absorbs and `pendingLength >= blockSize`) sets
`phase <- FAULTED` and changes nothing else. -/
def Obligations.ErrorsChangeNothingButTheFaultedPhase : Prop :=
  ∀ (i : Instr) (s : State), ∃ t r, exec i s = .next t ∧ t.responses = s.responses ++ [r] ∧
    (r.status ≠ .ok → r.data = .none ∧ t.draws2 = s.draws2 ∧ t.draws4 = s.draws4 ∧
      (if r.status = .invalidState ∧ phaseOf i.alg s = .absorbing then
        blockSize i.alg ≤ pendingLengthOf i.alg s ∧
        t.e2 = (if i.alg = .md2 then { s.e2 with phase := .faulted } else s.e2) ∧
        t.e4 = (if i.alg = .md4 then { s.e4 with phase := .faulted } else s.e4)
      else t.e2 = s.e2 ∧ t.e4 = s.e4))

/-- R126: `InsufficientBufferError`, code 1. A `DIGEST` with `cap < 16` of an engine that is not `FAULTED` answers status 1 with no data and changes no
state, and after `FINALIZE` the digest is still there for a retry with a larger buffer. -/
def Obligations.FailedDigestIsRetryable : Prop :=
  Status.insufficientBuffer.code = 1 ∧
  ∀ (s : State) (cap cap' : Nat), cap < 16 → 16 ≤ cap' →
    (s.e2.phase ≠ .faulted → ∃ t, exec (.digestMd2 cap) s = .next t ∧
      t = { s with responses := s.responses ++ [⟨.insufficientBuffer, .none⟩] } ∧
      (s.e2.phase = .finalized → exec (.digestMd2 cap') t =
        .next { t with responses := t.responses ++ [⟨.ok, .bytes s.e2.digestBytes⟩] })) ∧
    (s.e4.phase ≠ .faulted → ∃ t, exec (.digestMd4 cap) s = .next t ∧
      t = { s with responses := s.responses ++ [⟨.insufficientBuffer, .none⟩] } ∧
      (s.e4.phase = .finalized → exec (.digestMd4 cap') t =
        .next { t with responses := t.responses ++ [⟨.ok, .bytes s.e4.digestBytes⟩] }))

/-- 60_exceptions.md R127: after `InvalidStateError` for a pending length out of range, every `FEED`, `FINALIZE` or `DIGEST` to that
engine answers status 2 and changes nothing, until its `RESET`. This one is `E2`'s; the next is `E4`'s. -/
def Obligations.FaultedMd2IsStickyUntilReset : Prop :=
  ∀ (s : State) (i : Instr), i ∈ [.finalizeMd2] ∨ (∃ p, i = .feedMd2 p) →
    s.e2.phase = .absorbing → 16 ≤ s.e2.pendingLength →
    ∃ t, exec i s = .next t ∧
      t = { s with e2 := { s.e2 with phase := .faulted }, responses := s.responses ++ [⟨.invalidState, .none⟩] } ∧
      ∀ u : State, u.e2 = t.e2 →
        exec .finalizeMd2 u = .next { u with responses := u.responses ++ [⟨.invalidState, .none⟩] } ∧
        (∀ p, exec (.feedMd2 p) u = .next { u with responses := u.responses ++ [⟨.invalidState, .none⟩] }) ∧
        (∀ cap, exec (.digestMd2 cap) u = .next { u with responses := u.responses ++ [⟨.invalidState, .none⟩] }) ∧
        ∃ v, exec .resetMd2 u = .next v ∧ v.e2 = State.reset.e2

/-- The same of `E4` (60_exceptions.md R127). -/
def Obligations.FaultedMd4IsStickyUntilReset : Prop :=
  ∀ (s : State) (i : Instr), i ∈ [.finalizeMd4] ∨ (∃ p, i = .feedMd4 p) →
    s.e4.phase = .absorbing → 64 ≤ s.e4.pendingLength →
    ∃ t, exec i s = .next t ∧
      t = { s with e4 := { s.e4 with phase := .faulted }, responses := s.responses ++ [⟨.invalidState, .none⟩] } ∧
      ∀ u : State, u.e4 = t.e4 →
        exec .finalizeMd4 u = .next { u with responses := u.responses ++ [⟨.invalidState, .none⟩] } ∧
        (∀ p, exec (.feedMd4 p) u = .next { u with responses := u.responses ++ [⟨.invalidState, .none⟩] }) ∧
        (∀ cap, exec (.digestMd4 cap) u = .next { u with responses := u.responses ++ [⟨.invalidState, .none⟩] }) ∧
        ∃ v, exec .resetMd4 u = .next v ∧ v.e4 = State.reset.e4

/-- Chunk-boundary independence in the strong form that 40_interface.md R73 marks as derived from R63: feeding chunks one after the other, all accepted, leaves the whole engine in the
state one `FEED` of their concatenation leaves it in. -/
def Obligations.ChunkBoundariesDoNotMatter : Prop :=
  ∀ (chunks : List (List Byte)) (s : State),
    (s.e2.phase = .absorbing → s.e2.pendingLength < 16 →
      ∃ t u, runCommands (chunks.map .feedMd2) s = .next t ∧ exec (.feedMd2 chunks.flatten) s = .next u ∧
        t.e2 = u.e2 ∧ t.responses = s.responses ++ List.replicate chunks.length ⟨.ok, .none⟩) ∧
    (s.e4.phase = .absorbing → s.e4.pendingLength < 64 →
      ∃ t u, runCommands (chunks.map .feedMd4) s = .next t ∧ exec (.feedMd4 chunks.flatten) s = .next u ∧
        t.e4 = u.e4 ∧ t.responses = s.responses ++ List.replicate chunks.length ⟨.ok, .none⟩)

/-- A command addressed to one engine reads and writes only that engine's state (10_state.md R10): the other engine
stays, and from two states that agree on the addressed engine (and on the model's own counter of its free bytes) the
command gives the same engine and the same response. -/
def Obligations.CommandsKeepToTheirEngine : Prop :=
  ∀ (i : Instr) (s s' : State), ∃ t t' r,
    exec i s = .next t ∧ exec i s' = .next t' ∧
    (i.alg = .md2 → t.e4 = s.e4 ∧ t.draws4 = s.draws4 ∧
      (s.e2 = s'.e2 → s.draws2 = s'.draws2 →
        t.e2 = t'.e2 ∧ t.draws2 = t'.draws2 ∧ t.responses = s.responses ++ [r] ∧
        t'.responses = s'.responses ++ [r])) ∧
    (i.alg = .md4 → t.e2 = s.e2 ∧ t.draws2 = s.draws2 ∧
      (s.e4 = s'.e4 → s.draws4 = s'.draws4 →
        t.e4 = t'.e4 ∧ t.draws4 = t'.draws4 ∧ t.responses = s.responses ++ [r] ∧
        t'.responses = s'.responses ++ [r]))

/-- Commands to `E2` and commands to `E4` may be interleaved in any way and do not affect each other (40_interface.md
R60): after any sequence of commands each engine is as it is after its own commands of the sequence alone. -/
def Obligations.InterleavingDoesNotMatter : Prop :=
  ∀ (is : List Instr) (s : State), ∃ t t2 t4,
    runCommands is s = .next t ∧
    runCommands (is.filter fun i => i.alg = .md2) s = .next t2 ∧
    runCommands (is.filter fun i => i.alg = .md4) s = .next t4 ∧
    t.e2 = t2.e2 ∧ t.e4 = t4.e4 ∧ t2.e4 = s.e4 ∧ t4.e2 = s.e2

/-! ### Invariants (10_state.md R27, 30_encoding.md R53) -/

/-- The invariants hold after power-on reset. -/
def Obligations.ResetSatisfiesTheInvariants : Prop := State.reset.Inv

/-- Every step keeps the invariants of 10_state.md R27 and R19, from every state that has them. -/
def Obligations.StepKeepsTheInvariants : Prop :=
  ∀ s t : State, s.Inv → step s = .next t → t.Inv

/-- The three clauses of 10_state.md R27, which marks them as derived by induction over commands: in every state reached from reset by any sequence of command words and payload bytes, (a) the pending lengths
are below the block sizes, (b) a finalized engine has no pending byte, (c) no engine is `FAULTED`. -/
def Obligations.ReachableStatesKeepTheirBounds : Prop :=
  ∀ (ws : List Word) (stream : List Byte) (n : Nat) (t : State),
    Sys2Proof.core.run n { State.reset with commandWords := ws, payloadStream := stream } = .next t →
    (t.e2.pendingLength ≤ 15 ∧ t.e4.pendingLength ≤ 63) ∧
    (t.e2.phase = .finalized → t.e2.pendingLength = 0) ∧ (t.e4.phase = .finalized → t.e4.pendingLength = 0) ∧
    t.e2.phase ≠ .faulted ∧ t.e4.phase ≠ .faulted

/-- Every step keeps the shape of the response stream (30_encoding.md R53): an error carries no data, data is sixteen
bytes or a constant; and it adds at most one response. -/
def Obligations.StepKeepsResponsesWellShaped : Prop :=
  ∀ s t : State, s.responses.all Response.wellShaped = true → step s = .next t →
    t.responses.all Response.wellShaped = true ∧
    (t.responses = s.responses ∨ ∃ r, t.responses = s.responses ++ [r])

/-! ### Whole computations -/

/-- The MD2 digest as one formula (41_md2_engine.md R91, which is marked as derived from R84, R86 and R87). From any state, `RESET.MD2`, any chunks, `FINALIZE.MD2` and a `DIGEST.MD2` with
room answer `OK` throughout and at last the digest of the chunks' concatenation. -/
def Obligations.Md2DigestOfTheMessage : Prop :=
  ∀ (chunks : List (List Byte)) (cap : Nat) (s : State), 16 ≤ cap →
    ∃ t, runCommands (.resetMd2 :: chunks.map .feedMd2 ++ [.finalizeMd2, .digestMd2 cap]) s = .next t ∧
      t.responses = s.responses ++ List.replicate (chunks.length + 2) ⟨.ok, .none⟩ ++
        [⟨.ok, .bytes (md2Digest chunks.flatten)⟩]

/-- The MD4 digest as one formula (42_md4_engine.md R119, which is marked as derived from R110 to R115), as the
statement before for `E2`; the length field holds the bit length modulo 2^64. -/
def Obligations.Md4DigestOfTheMessage : Prop :=
  ∀ (chunks : List (List Byte)) (cap : Nat) (s : State), 16 ≤ cap →
    ∃ t, runCommands (.resetMd4 :: chunks.map .feedMd4 ++ [.finalizeMd4, .digestMd4 cap]) s = .next t ∧
      t.responses = s.responses ++ List.replicate (chunks.length + 2) ⟨.ok, .none⟩ ++
        [⟨.ok, .bytes (md4Digest chunks.flatten)⟩]

/-- 40_interface.md R76 with R91 and R119: a hash computation among other commands. After a `RESET` of an engine come any
commands, of which those to this engine are neither `RESET` nor `FINALIZE`; then its `FINALIZE`; then any commands, of
which those to this engine are `DIGEST` or accessors; then a `DIGEST` with room answers the digest of the
computation's message, whatever the commands to the other engine and whatever state it all began in. -/
def Obligations.EveryComputationAnswersItsDigest : Prop :=
  ∀ (alg : Algorithm) (feeding reading : List Instr) (cap : Nat) (s : State), 16 ≤ cap →
    (∀ i ∈ feeding, i.alg = alg → i.op ≠ .reset ∧ i.op ≠ .finalize) →
    (∀ i ∈ reading, i.alg = alg → i.op = .digest ∨ i.op = .blocksize ∨ i.op = .digestbits) →
    ∃ t rs, runCommands (commandOf .reset alg [] 0 :: feeding ++ commandOf .finalize alg [] 0 :: reading ++
        [commandOf .digest alg [] cap]) s = .next t ∧
      t.responses = s.responses ++ rs ++ [⟨.ok, .bytes (digestOf alg (messageOf alg feeding))⟩]

/-- R119's `z` is the least number of zero bytes with `(n + 1 + z) mod 64 = 56`, and the padded message is a whole
number of blocks; R91's padded message is a whole number of blocks too. -/
def Obligations.PaddedMessagesAreWholeBlocks : Prop :=
  ∀ m : List Byte,
    (m.length + 1 + md4Zeros m.length) % 64 = 56 ∧
    (∀ z, (m.length + 1 + z) % 64 = 56 → md4Zeros m.length ≤ z) ∧
    (md4Padded m).length % 64 = 0 ∧ (md2Padded m).length % 16 = 0

/-- The host's part (70_reset_and_hazards.md R149 to R151, R154): a sequence of commands that keeps the host's
obligations, from a state with the invariants, is answered `OK` at every command, draws no unspecified byte, and the
invariants hold at its end. That no unspecified byte is drawn is said through the model's own counters `draws2` and
`draws4`, which are the model's choice (log 5). -/
def Obligations.ProperHostsGetOkThroughout : Prop :=
  ∀ (is : List Instr) (s : State), s.Inv → hostProper s.e2.phase s.e4.phase is = true →
    ∃ t rs, runCommands is s = .next t ∧ t.responses = s.responses ++ rs ∧ rs.length = is.length ∧
      (∀ r ∈ rs, r.status = .ok) ∧ t.draws2 = s.draws2 ∧ t.draws4 = s.draws4 ∧ t.Inv

/-! ### The textual command language (30_encoding.md R55, R56) -/

/-- A well-formed command written in the line syntax of R55 is read back as itself. -/
def Obligations.WrittenLinesAreReadBack : Prop :=
  ∀ i : Instr, i.wellFormed = true → parseLine (Instr.text i) = some [i]

/-- R56: the expansions of the pseudo-commands. The pieces of `FEEDL` are consecutive, at most 65535 bytes each, one
piece for no bytes and otherwise `ceil(n / 65535)` of them. -/
def Obligations.PseudoCommandsExpand : Prop :=
  ∀ (bytes : List Byte),
    (∃ ps : List (List Byte), ps.flatten = bytes ∧ (∀ p ∈ ps, p.length ≤ 65535) ∧
      ps.length = (if bytes = [] then 1 else (bytes.length + 65534) / 65535) ∧
      (Pseudo.feedl .md2 bytes).expand = ps.map .feedMd2 ∧ (Pseudo.feedl .md4 bytes).expand = ps.map .feedMd4) ∧
    (Pseudo.hash .md2 bytes).expand =
      .resetMd2 :: (Pseudo.feedl .md2 bytes).expand ++ [.finalizeMd2, .digestMd2 16] ∧
    (Pseudo.hash .md4 bytes).expand =
      .resetMd4 :: (Pseudo.feedl .md4 bytes).expand ++ [.finalizeMd4, .digestMd4 16] ∧
    (Pseudo.nopfeed .md2).expand = [.feedMd2 []] ∧ (Pseudo.nopfeed .md4).expand = [.feedMd4 []]
end

