-- ==== Sys2Proof/Laws/Decode.lean ====
section
/-! SUPPORT. The fields of the command word (30_encoding.md R46 to R49) as numbers, and what the parts of the decoder
answer. -/

namespace Sys2Proof

theorem opField_eq (w : Word) : opField w = w.toNat / 2 ^ 28 % 2 ^ 4 := by
  simp [opField, BitVec.extractLsb'_toNat, Nat.shiftRight_eq_div_pow]

theorem algField_eq (w : Word) : algField w = w.toNat / 2 ^ 24 % 2 ^ 4 := by
  simp [algField, BitVec.extractLsb'_toNat, Nat.shiftRight_eq_div_pow]

theorem rsvField_eq (w : Word) : rsvField w = w.toNat / 2 ^ 16 % 2 ^ 8 := by
  simp [rsvField, BitVec.extractLsb'_toNat, Nat.shiftRight_eq_div_pow]

theorem lenField_eq (w : Word) : lenField w = w.toNat % 2 ^ 16 := by
  simp [lenField, BitVec.extractLsb'_toNat]

/-- The four fields make up the word. -/
theorem word_of_fields (w : Word) :
    w.toNat = opField w * 2 ^ 28 + algField w * 2 ^ 24 + rsvField w * 2 ^ 16 + lenField w := by
  have := w.isLt
  rw [opField_eq, algField_eq, rsvField_eq, lenField_eq]
  omega

theorem Op.number_lt (op : Op) : op.number < 6 := by cases op <;> decide

theorem Algorithm.number_lt (a : Algorithm) : a.number < 2 := by cases a <;> decide

theorem commandWord_toNat (op : Op) (a : Algorithm) (len : Nat) (h : len ≤ maxLen) :
    (commandWord op a len).toNat = op.number * 2 ^ 28 + a.number * 2 ^ 24 + len := by
  have := op.number_lt
  have := a.number_lt
  unfold maxLen at h
  rw [commandWord, BitVec.toNat_ofNat]
  omega

/-! ### The fields of an encoded word -/

theorem opField_commandWord (op : Op) (a : Algorithm) (len : Nat) (h : len ≤ maxLen) :
    opField (commandWord op a len) = op.number := by
  have := op.number_lt
  have := a.number_lt
  rw [opField_eq, commandWord_toNat op a len h]
  unfold maxLen at h
  omega

theorem algField_commandWord (op : Op) (a : Algorithm) (len : Nat) (h : len ≤ maxLen) :
    algField (commandWord op a len) = a.number := by
  have := op.number_lt
  have := a.number_lt
  rw [algField_eq, commandWord_toNat op a len h]
  unfold maxLen at h
  omega

theorem rsvField_commandWord (op : Op) (a : Algorithm) (len : Nat) (h : len ≤ maxLen) :
    rsvField (commandWord op a len) = 0 := by
  have := op.number_lt
  have := a.number_lt
  rw [rsvField_eq, commandWord_toNat op a len h]
  unfold maxLen at h
  omega

theorem lenField_commandWord (op : Op) (a : Algorithm) (len : Nat) (h : len ≤ maxLen) :
    lenField (commandWord op a len) = len := by
  have := op.number_lt
  have := a.number_lt
  rw [lenField_eq, commandWord_toNat op a len h]
  unfold maxLen at h
  omega

/-! ### Numbers of operations and engines -/

@[simp] theorem Op.ofNumber_number (op : Op) : Op.ofNumber op.number = some op := by cases op <;> rfl

@[simp] theorem Algorithm.ofNumber_number (a : Algorithm) : Algorithm.ofNumber a.number = some a := by
  cases a <;> rfl

theorem Op.number_inj {op op' : Op} : op.number = op'.number ↔ op = op' := by
  cases op <;> cases op' <;> decide

theorem Algorithm.number_inj {a a' : Algorithm} : a.number = a'.number ↔ a = a' := by
  cases a <;> cases a' <;> decide

/-- A number names an operation exactly when it is at most 5. -/
theorem Op.ofNumber_eq_some {n : Nat} {op : Op} : Op.ofNumber n = some op ↔ n = op.number := by
  constructor
  · intro h
    match n, h with
    | 0, h | 1, h | 2, h | 3, h | 4, h | 5, h => cases h; rfl
    | n + 6, h => cases h
  · rintro rfl
    exact Op.ofNumber_number op

theorem Op.ofNumber_eq_none {n : Nat} : Op.ofNumber n = none ↔ 6 ≤ n := by
  match n with
  | 0 | 1 | 2 | 3 | 4 | 5 => simp [Op.ofNumber]
  | n + 6 => simp [Op.ofNumber]

theorem Algorithm.ofNumber_eq_some {n : Nat} {a : Algorithm} : Algorithm.ofNumber n = some a ↔ n = a.number := by
  constructor
  · intro h
    match n, h with
    | 0, h | 1, h => cases h; rfl
    | n + 2, h => cases h
  · rintro rfl
    exact Algorithm.ofNumber_number a

theorem Algorithm.ofNumber_eq_none {n : Nat} : Algorithm.ofNumber n = none ↔ 2 ≤ n := by
  match n with
  | 0 | 1 => simp [Algorithm.ofNumber]
  | n + 2 => simp [Algorithm.ofNumber]

/-! ### The decoder's parts -/

theorem takePayload_append (p rest : List Byte) : takePayload p.length (p ++ rest) = .ok (p, rest) := by
  simp [takePayload]

/-- Taking a payload splits the stream. -/
theorem takePayload_eq_ok {len : Nat} {stream p rest : List Byte} (h : takePayload len stream = .ok (p, rest)) :
    stream = p ++ rest ∧ p.length = len := by
  unfold takePayload at h
  split at h
  · next hl =>
    cases h
    exact ⟨(List.take_append_drop len stream).symm, List.length_take_of_le hl⟩
  · cases h

/-- Everything the decoder can do with a legal word: the word's fields name an operation and an engine, `rsv` is zero,
and `len` is zero where it must be. -/
theorem decode_of_fields {w : Word} {op : Op} {a : Algorithm} (ho : opField w = op.number)
    (ha : algField w = a.number) (hr : rsvField w = 0) (hl : op.takesNoLen = true → lenField w = 0)
    (stream : List Byte) : decode w stream = assemble op a (lenField w) stream := by
  simp only [decode, ho, ha, Op.ofNumber_number, Algorithm.ofNumber_number, hr]
  rw [if_neg (by simp), if_neg (by rintro ⟨h1, h2⟩; exact h2 (hl h1))]

/-- Inversion of the decoder: why it answered a command, or a payload still incomplete, or an illegal word. -/
theorem decode_cases (w : Word) (stream : List Byte) :
    (∃ (op : Op) (a : Algorithm), opField w = op.number ∧ algField w = a.number ∧ rsvField w = 0 ∧
      (op.takesNoLen = true → lenField w = 0) ∧ decode w stream = assemble op a (lenField w) stream) ∨
    (6 ≤ opField w ∧ decode w stream = .error .reservedOp) ∨
    (opField w < 6 ∧ 2 ≤ algField w ∧ decode w stream = .error .reservedAlg) ∨
    (opField w < 6 ∧ algField w < 2 ∧ rsvField w ≠ 0 ∧ decode w stream = .error .reservedBits) ∨
    (∃ op : Op, opField w = op.number ∧ op.takesNoLen = true ∧ algField w < 2 ∧ rsvField w = 0 ∧ lenField w ≠ 0 ∧
      decode w stream = .error .nonzeroLen) := by
  cases ho : Op.ofNumber (opField w) with
  | none => exact .inr (.inl ⟨Op.ofNumber_eq_none.mp ho, by simp [decode, ho]⟩)
  | some op =>
    have ho' := Op.ofNumber_eq_some.mp ho
    have hop := op.number_lt
    cases ha : Algorithm.ofNumber (algField w) with
    | none => exact .inr (.inr (.inl ⟨by omega, Algorithm.ofNumber_eq_none.mp ha, by simp [decode, ho, ha]⟩))
    | some a =>
      have ha' := Algorithm.ofNumber_eq_some.mp ha
      have hal := a.number_lt
      by_cases hr : rsvField w = 0
      · by_cases hl : op.takesNoLen = true ∧ lenField w ≠ 0
        · exact .inr (.inr (.inr (.inr
            ⟨op, ho', hl.1, by omega, hr, hl.2, by simp [decode, ho, ha, hr, hl.1, hl.2]⟩)))
        · have hl' : op.takesNoLen = true → lenField w = 0 := fun h => by
            by_contra h'
            exact hl ⟨h, h'⟩
          exact .inl ⟨op, a, ho', ha', hr, hl', decode_of_fields ho' ha' hr hl' stream⟩
      · exact .inr (.inr (.inr (.inl ⟨by omega, by omega, hr, by simp [decode, ho, ha, hr]⟩)))

/-! ### The opcode map (R57) -/

/-- The `len` field is in the range of the `len` field. -/
theorem lenField_le (w : Word) : lenField w ≤ maxLen := by
  rw [lenField_eq]; unfold maxLen; omega

/-- Everything a command the decoder assembled can be. -/
theorem assemble_eq_ok {op : Op} {a : Algorithm} {len : Nat} {stream rest : List Byte} {i : Instr}
    (h : assemble op a len stream = .ok (i, rest)) (hl : op.takesNoLen = true → len = 0) :
    i.op = op ∧ i.alg = a ∧ i.len = len ∧ i.payload ++ rest = stream := by
  cases op <;> cases a <;> simp only [assemble, Except.ok.injEq, Prod.mk.injEq] at h <;> first
    | (obtain ⟨rfl, rfl⟩ := h; simp_all [Instr.op, Instr.alg, Instr.len, Instr.payload, Op.takesNoLen])
    | (cases hp : takePayload len stream with
       | error e => rw [hp] at h; cases h
       | ok r =>
         rw [hp] at h; cases h
         obtain ⟨h1, h2⟩ := takePayload_eq_ok (p := r.1) (rest := r.2) hp
         exact ⟨rfl, rfl, h2, h1.symm⟩)

/-- The mask of the rows with a `len` field keeps the upper sixteen bits. -/
theorem and_upper_toNat (w : Word) : (w &&& 0xFFFF0000#32).toNat = w.toNat / 2 ^ 16 * 2 ^ 16 := by
  have hw := w.isLt
  have hm : (0xFFFF0000 : Nat) = 2 ^ 16 * 0xFFFF := by norm_num
  rw [BitVec.toNat_and, BitVec.toNat_ofNat, Nat.mod_eq_of_lt (by norm_num), hm]
  apply Nat.eq_of_testBit_eq
  intro i
  rw [Nat.testBit_and, Nat.testBit_two_pow_mul, Nat.mul_comm (w.toNat / 2 ^ 16),
    Nat.testBit_two_pow_mul, Nat.testBit_div_two_pow]
  rcases Nat.lt_or_ge i 16 with h | h
  · simp [Nat.not_le.mpr h]
  · rw [show (0xFFFF:Nat) = 2^16 - 1 by norm_num, Nat.testBit_two_pow_sub_one]
    rcases Nat.lt_or_ge i 32 with h' | h'
    · simp [h, show i - 16 < 16 by omega, show i - 16 + 16 = i by omega]
    · have hbit := Nat.testBit_lt_two_pow (x := w.toNat) (i := i)
        (lt_of_lt_of_le hw (Nat.pow_le_pow_right (by decide) h'))
      simp [hbit, show i - 16 + 16 = i by omega]

/-- The mask of the rows without a `len` field keeps all bits. -/
theorem and_all (w : Word) : w &&& 0xFFFFFFFF#32 = w := by
  have : (0xFFFFFFFF#32 : Word) = BitVec.allOnes 32 := rfl
  rw [this, BitVec.and_allOnes]

theorem and_upper_eq_iff (w p : Word) : w &&& 0xFFFF0000 = p ↔ w.toNat / 2 ^ 16 * 2 ^ 16 = p.toNat := by
  rw [← BitVec.toNat_inj, ← and_upper_toNat]
  rfl

theorem and_all_eq_iff (w p : Word) : w &&& 0xFFFFFFFF = p ↔ w.toNat = p.toNat := by
  rw [← BitVec.toNat_inj, show w &&& 0xFFFFFFFF = w from and_all w]

/-- R57's test of a row, on the fields (R46 to R50). -/
theorem OpcodeRow.covers_iff_fields (w : Word) (r : OpcodeRow) (hr : r ∈ opcodeRows) :
    w &&& r.mask = r.pattern ↔
      opField w = r.op.number ∧ algField w = r.alg.number ∧ rsvField w = 0 ∧
        (r.op.takesNoLen = true → lenField w = 0) := by
  have hw := w.isLt
  rw [opField_eq, algField_eq, rsvField_eq, lenField_eq]
  simp only [opcodeRows, opcodeRowsMd2, opcodeRowsMd4, List.cons_append, List.nil_append, List.mem_cons,
    List.not_mem_nil, or_false] at hr
  rcases hr with rfl | rfl | rfl | rfl | rfl | rfl | rfl | rfl | rfl | rfl | rfl | rfl <;>
    dsimp only <;> first | rw [and_upper_eq_iff] | rw [and_all_eq_iff]
  all_goals
    simp [Op.number, Algorithm.number, Op.takesNoLen]
    omega

/-- Every operation of every engine has its row. -/
theorem opcodeRow_exists (op : Op) (a : Algorithm) : ∃ r ∈ opcodeRows, r.op = op ∧ r.alg = a := by
  cases op <;> cases a <;> decide

end Sys2Proof
end

