-- ==== Sys2Proof/Laws/State.lean ====
section
/-! SUPPORT. One lemma for each field under each shared update of the state, and the fields of the reset state. -/

namespace Sys2Proof.Machine

/-! ### `respond` -/

@[simp] theorem respond_e2 (st : Status) (d : ResponseData) (s : State) : (respond st d s).e2 = s.e2 := rfl
@[simp] theorem respond_e4 (st : Status) (d : ResponseData) (s : State) : (respond st d s).e4 = s.e4 := rfl
@[simp] theorem respond_commandWords (st : Status) (d : ResponseData) (s : State) :
    (respond st d s).commandWords = s.commandWords := rfl
@[simp] theorem respond_payloadStream (st : Status) (d : ResponseData) (s : State) :
    (respond st d s).payloadStream = s.payloadStream := rfl
@[simp] theorem respond_responses (st : Status) (d : ResponseData) (s : State) :
    (respond st d s).responses = s.responses ++ [⟨st, d⟩] := rfl
@[simp] theorem respond_draws2 (st : Status) (d : ResponseData) (s : State) :
    (respond st d s).draws2 = s.draws2 := rfl
@[simp] theorem respond_draws4 (st : Status) (d : ResponseData) (s : State) :
    (respond st d s).draws4 = s.draws4 := rfl

/-! ### `setPhase` -/

@[simp] theorem setPhase_md2_e2 (p : Phase) (s : State) :
    (setPhase .md2 p s).e2 = { s.e2 with phase := p } := rfl
@[simp] theorem setPhase_md2_e4 (p : Phase) (s : State) : (setPhase .md2 p s).e4 = s.e4 := rfl
@[simp] theorem setPhase_md4_e2 (p : Phase) (s : State) : (setPhase .md4 p s).e2 = s.e2 := rfl
@[simp] theorem setPhase_md4_e4 (p : Phase) (s : State) :
    (setPhase .md4 p s).e4 = { s.e4 with phase := p } := rfl
@[simp] theorem setPhase_commandWords (a : Algorithm) (p : Phase) (s : State) :
    (setPhase a p s).commandWords = s.commandWords := by cases a <;> rfl
@[simp] theorem setPhase_payloadStream (a : Algorithm) (p : Phase) (s : State) :
    (setPhase a p s).payloadStream = s.payloadStream := by cases a <;> rfl
@[simp] theorem setPhase_responses (a : Algorithm) (p : Phase) (s : State) :
    (setPhase a p s).responses = s.responses := by cases a <;> rfl
@[simp] theorem setPhase_draws2 (a : Algorithm) (p : Phase) (s : State) :
    (setPhase a p s).draws2 = s.draws2 := by cases a <;> rfl
@[simp] theorem setPhase_draws4 (a : Algorithm) (p : Phase) (s : State) :
    (setPhase a p s).draws4 = s.draws4 := by cases a <;> rfl

/-! ### The fields the two engines have in common -/

@[simp] theorem phaseOf_md2 (s : State) : phaseOf .md2 s = s.e2.phase := rfl
@[simp] theorem phaseOf_md4 (s : State) : phaseOf .md4 s = s.e4.phase := rfl
@[simp] theorem pendingLengthOf_md2 (s : State) : pendingLengthOf .md2 s = s.e2.pendingLength := rfl
@[simp] theorem pendingLengthOf_md4 (s : State) : pendingLengthOf .md4 s = s.e4.pendingLength := rfl
@[simp] theorem blockSize_md2 : blockSize .md2 = 16 := rfl
@[simp] theorem blockSize_md4 : blockSize .md4 = 64 := rfl

/-! ### `raise` -/

@[simp] theorem raise_smallBuffer (s : State) : raise .smallBuffer s = respond .insufficientBuffer .none s := rfl
@[simp] theorem raise_engineFaulted (s : State) : raise .engineFaulted s = respond .invalidState .none s := rfl
@[simp] theorem raise_illegalWord (s : State) : raise .illegalWord s = respond .illegalCommand .none s := rfl
@[simp] theorem raise_alreadyFinalized (s : State) : raise .alreadyFinalized s = respond .finalized .none s := rfl
@[simp] theorem raise_pendingOverflow (a : Algorithm) (s : State) :
    raise (.pendingOverflow a) s = respond .invalidState .none (setPhase a .faulted s) := rfl

/-! ### Reset -/

@[simp] theorem reset_e2 : State.reset.e2 = Md2Engine.reset := rfl
@[simp] theorem reset_e4 : State.reset.e4 = Md4Engine.reset := rfl
@[simp] theorem reset_commandWords : State.reset.commandWords = [] := rfl
@[simp] theorem reset_payloadStream : State.reset.payloadStream = [] := rfl
@[simp] theorem reset_responses : State.reset.responses = [] := rfl
@[simp] theorem md2_reset_pendingLength : Md2Engine.reset.pendingLength = 0 := rfl
@[simp] theorem md2_reset_phase : Md2Engine.reset.phase = .absorbing := rfl
@[simp] theorem md4_reset_pendingLength : Md4Engine.reset.pendingLength = 0 := rfl
@[simp] theorem md4_reset_totalBitLength : Md4Engine.reset.totalBitLength = 0 := rfl
@[simp] theorem md4_reset_phase : Md4Engine.reset.phase = .absorbing := rfl

end Sys2Proof.Machine
end

