-- ==== Sys2Proof/Laws/Ops.lean ====
section
/-! SUPPORT. What the accesses to the storage spaces do, and what the checks of `FEED`, `FINALIZE` and `DIGEST`
answer. -/

namespace Sys2Proof.Machine

/-! ### Reading and writing -/

theorem arrayRead_eq_getElem {w n : Nat} (a : Vector (BitVec w) n) {i : Nat} (h : i < n) : arrayRead a i = a[i] := by
  simp [arrayRead, Vector.getD, h]

theorem arrayRead_beyond {w n : Nat} (a : Vector (BitVec w) n) {i : Nat} (h : n ≤ i) : arrayRead a i = 0 := by
  simp [arrayRead, Vector.getD, Nat.not_lt.mpr h]

/-- Read after write. -/
theorem arrayRead_arrayWrite {w n : Nat} (a : Vector (BitVec w) n) (i j : Nat) (v : BitVec w) :
    arrayRead (arrayWrite a i v) j = if i = j ∧ j < n then v else arrayRead a j := by
  by_cases hj : j < n
  · simp only [arrayRead_eq_getElem _ hj, arrayWrite, Vector.getElem_setIfInBounds, hj, and_true]
  · simp [arrayRead_beyond _ (Nat.not_lt.mp hj), hj]

theorem arrayRead_arrayWrite_same {w n : Nat} (a : Vector (BitVec w) n) {i : Nat} (h : i < n) (v : BitVec w) :
    arrayRead (arrayWrite a i v) i = v := by
  simp [arrayRead_arrayWrite, h]

theorem arrayRead_arrayWrite_other {w n : Nat} (a : Vector (BitVec w) n) {i j : Nat} (h : i ≠ j) (v : BitVec w) :
    arrayRead (arrayWrite a i v) j = arrayRead a j := by
  simp [arrayRead_arrayWrite, h]

/-- Two storage spaces that read alike are the same. -/
theorem array_ext {w n : Nat} {a b : Vector (BitVec w) n} (h : ∀ i < n, arrayRead a i = arrayRead b i) : a = b := by
  apply Vector.ext
  intro i hi
  simpa [arrayRead_eq_getElem _ hi] using h i hi

theorem arrayRead_replicate_zero {w n : Nat} (i : Nat) : arrayRead (Vector.replicate n (0#w)) i = 0#w := by
  by_cases h : i < n
  · simp [arrayRead_eq_getElem _ h]
  · exact arrayRead_beyond _ (Nat.not_lt.mp h)

theorem arrayRead_ofFn {w n : Nat} (f : Fin n → BitVec w) {i : Nat} (h : i < n) :
    arrayRead (Vector.ofFn f) i = f ⟨i, h⟩ := by
  simp [arrayRead_eq_getElem _ h]

/-- The loops `for i in a .. b: A[i] <- f(i)`: exactly the indices of the range are written. -/
theorem arrayRead_arrayFill {w n : Nat} (a : Vector (BitVec w) n) (start count : Nat) (f : Nat → BitVec w) (j : Nat) :
    arrayRead (arrayFill a start count f) j =
      if start ≤ j ∧ j < start + count ∧ j < n then f j else arrayRead a j := by
  induction count generalizing start a with
  | zero =>
    have : ¬ (start ≤ j ∧ j < start + 0 ∧ j < n) := by omega
    rw [if_neg this]
    rfl
  | succ k ih =>
    have hstep : arrayFill a start (k + 1) f = arrayFill (arrayWrite a start (f start)) (start + 1) k f := by
      simp [arrayFill, List.range'_succ]
    rw [hstep, ih, arrayRead_arrayWrite]
    by_cases hj : start = j
    · subst hj
      by_cases hn : start < n
      · simp [hn]
      · simp [hn]
    · by_cases hin : start + 1 ≤ j ∧ j < start + 1 + k ∧ j < n
      · rw [if_pos hin, if_pos (by omega)]
      · rw [if_neg hin, if_neg (by omega), if_neg (by omega)]

/-! ### Rotation -/

/-- `rol32` is rotation left (00_scope.md R6). -/
theorem rol32_eq_rotateLeft (v : Word) {s : Nat} (h : s < 32) : rol32 v s = v.rotateLeft s := by
  simp [rol32, BitVec.rotateLeft, BitVec.rotateLeftAux, Nat.mod_eq_of_lt h]

/-! ### Little-endian words (20_memory.md R35) -/

theorem loadWord_toNat {n : Nat} (pb : Vector Byte n) (k : Nat) :
    (loadWord pb k).toNat =
      (arrayRead pb (4 * k)).toNat + 2 ^ 8 * (arrayRead pb (4 * k + 1)).toNat +
        2 ^ 16 * (arrayRead pb (4 * k + 2)).toNat + 2 ^ 24 * (arrayRead pb (4 * k + 3)).toNat := by
  have h0 := (arrayRead pb (4 * k)).isLt
  have h1 := (arrayRead pb (4 * k + 1)).isLt
  have h2 := (arrayRead pb (4 * k + 2)).isLt
  have h3 := (arrayRead pb (4 * k + 3)).isLt
  have c1 : BitVec.toNat (0x100 : Word) = 256 := rfl
  have c2 : BitVec.toNat (0x10000 : Word) = 65536 := rfl
  have c3 : BitVec.toNat (0x1000000 : Word) = 16777216 := rfl
  rw [loadWord, BitVec.toNat_add, BitVec.toNat_add, BitVec.toNat_add, BitVec.toNat_mul, BitVec.toNat_mul,
    BitVec.toNat_mul, c1, c2, c3, BitVec.toNat_setWidth, BitVec.toNat_setWidth, BitVec.toNat_setWidth,
    BitVec.toNat_setWidth]
  omega

/-! ### The checks (40_interface.md R61) -/

/-- `FEED` and `FINALIZE` pass their checks exactly when the engine absorbs and its pending length is in range. -/
theorem absorbCheck_eq_none_iff (a : Algorithm) (s : State) :
    absorbCheck a s = none ↔ phaseOf a s = .absorbing ∧ pendingLengthOf a s < blockSize a := by
  unfold absorbCheck
  cases h : phaseOf a s <;> simp

theorem absorbCheck_of_faulted {a : Algorithm} {s : State} (h : phaseOf a s = .faulted) :
    absorbCheck a s = some .engineFaulted := by
  simp [absorbCheck, h]

theorem absorbCheck_of_finalized {a : Algorithm} {s : State} (h : phaseOf a s = .finalized) :
    absorbCheck a s = some .alreadyFinalized := by
  simp [absorbCheck, h]

theorem absorbCheck_of_overfull {a : Algorithm} {s : State} (h : phaseOf a s = .absorbing)
    (hp : blockSize a ≤ pendingLengthOf a s) : absorbCheck a s = some (.pendingOverflow a) := by
  simp [absorbCheck, h, hp]

/-- Everything the checks of `FEED` and `FINALIZE` can answer. -/
theorem absorbCheck_cases (a : Algorithm) (s : State) :
    (phaseOf a s = .absorbing ∧ pendingLengthOf a s < blockSize a ∧ absorbCheck a s = none) ∨
    (phaseOf a s = .absorbing ∧ blockSize a ≤ pendingLengthOf a s ∧ absorbCheck a s = some (.pendingOverflow a)) ∨
    (phaseOf a s = .finalized ∧ absorbCheck a s = some .alreadyFinalized) ∨
    (phaseOf a s = .faulted ∧ absorbCheck a s = some .engineFaulted) := by
  cases h : phaseOf a s with
  | absorbing =>
    rcases Nat.lt_or_ge (pendingLengthOf a s) (blockSize a) with hp | hp
    · exact .inl ⟨rfl, hp, (absorbCheck_eq_none_iff a s).mpr ⟨h, hp⟩⟩
    · exact .inr (.inl ⟨rfl, hp, absorbCheck_of_overfull h hp⟩)
  | finalized => exact .inr (.inr (.inl ⟨rfl, absorbCheck_of_finalized h⟩))
  | faulted => exact .inr (.inr (.inr ⟨rfl, absorbCheck_of_faulted h⟩))

/-- Everything the checks of `DIGEST` can answer. -/
theorem digestCheck_cases (a : Algorithm) (cap : Nat) (s : State) :
    (phaseOf a s ≠ .faulted ∧ 16 ≤ cap ∧ digestCheck a cap s = none) ∨
    (phaseOf a s ≠ .faulted ∧ cap < 16 ∧ digestCheck a cap s = some .smallBuffer) ∨
    (phaseOf a s = .faulted ∧ digestCheck a cap s = some .engineFaulted) := by
  unfold digestCheck digestLength
  by_cases h : phaseOf a s = .faulted
  · exact .inr (.inr ⟨h, by simp [h]⟩)
  · rcases Nat.lt_or_ge cap 16 with hc | hc
    · exact .inr (.inl ⟨h, hc, by simp [h, hc]⟩)
    · exact .inl ⟨h, hc, by simp [h, Nat.not_lt.mpr hc]⟩

/-! ### Lengths -/

@[simp] theorem wordsBytes_length (words : Vector Word 4) : (wordsBytes words).length = 16 := by
  simp [wordsBytes, digestLength]

@[simp] theorem lengthBytes_length (bits : DWord) : (lengthBytes bits).length = 8 := by
  simp [lengthBytes]

@[simp] theorem unspecifiedBytes_length (a : Algorithm) (n : Nat) : (unspecifiedBytes a n).length = 16 := by
  simp [unspecifiedBytes, digestLength]

end Sys2Proof.Machine
end

