-- ==== Sys2Proof/Laws/Md2.lean ====
section
/-! SUPPORT. What the micro-operations of the MD2 engine change, and what they leave alone (41_md2_engine.md). -/

namespace Sys2Proof.Machine

/-! ### Frames of the block processor (R81 to R83) -/

@[simp] theorem Md2Engine.compress_checksum (e : Md2Engine) : e.compress.checksum = e.checksum := by
  simp only [Md2Engine.compress]
@[simp] theorem Md2Engine.compress_pendingBlock (e : Md2Engine) : e.compress.pendingBlock = e.pendingBlock := by
  simp only [Md2Engine.compress]
@[simp] theorem Md2Engine.compress_pendingLength (e : Md2Engine) : e.compress.pendingLength = e.pendingLength := by
  simp only [Md2Engine.compress]
@[simp] theorem Md2Engine.compress_phase (e : Md2Engine) : e.compress.phase = e.phase := by
  simp only [Md2Engine.compress]
@[simp] theorem Md2Engine.compress_transformBuffer (e : Md2Engine) :
    e.compress.transformBuffer = compress2 e.transformBuffer e.pendingBlock := by
  simp only [Md2Engine.compress]
@[simp] theorem Md2Engine.updateChecksum_checksum (e : Md2Engine) :
    e.updateChecksum.checksum = checksum2 e.checksum e.pendingBlock := by
  simp only [Md2Engine.updateChecksum]
@[simp] theorem Md2Engine.updateChecksum_transformBuffer (e : Md2Engine) :
    e.updateChecksum.transformBuffer = e.transformBuffer := by
  simp only [Md2Engine.updateChecksum]
@[simp] theorem Md2Engine.updateChecksum_pendingBlock (e : Md2Engine) :
    e.updateChecksum.pendingBlock = e.pendingBlock := by
  simp only [Md2Engine.updateChecksum]
@[simp] theorem Md2Engine.updateChecksum_pendingLength (e : Md2Engine) :
    e.updateChecksum.pendingLength = e.pendingLength := by
  simp only [Md2Engine.updateChecksum]
@[simp] theorem Md2Engine.updateChecksum_phase (e : Md2Engine) : e.updateChecksum.phase = e.phase := by
  simp only [Md2Engine.updateChecksum]
@[simp] theorem Md2Engine.loadChecksum_checksum (e : Md2Engine) : e.loadChecksum.checksum = e.checksum := by
  simp only [Md2Engine.loadChecksum]
@[simp] theorem Md2Engine.loadChecksum_transformBuffer (e : Md2Engine) :
    e.loadChecksum.transformBuffer = e.transformBuffer := by
  simp only [Md2Engine.loadChecksum]
@[simp] theorem Md2Engine.pad_checksum (e : Md2Engine) : e.pad.checksum = e.checksum := by
  simp only [Md2Engine.pad]
@[simp] theorem Md2Engine.pad_transformBuffer (e : Md2Engine) : e.pad.transformBuffer = e.transformBuffer := by
  simp only [Md2Engine.pad]
@[simp] theorem Md2Engine.finalize_pendingLength (e : Md2Engine) : e.finalize.pendingLength = 0 := by
  simp only [Md2Engine.finalize]
@[simp] theorem Md2Engine.finalize_phase (e : Md2Engine) : e.finalize.phase = .finalized := by
  simp only [Md2Engine.finalize]

@[simp] theorem Md2Engine.digestBytes_length (e : Md2Engine) : e.digestBytes.length = 16 := by
  simp [Md2Engine.digestBytes, digestLength]

/-- The checksum copied into the input buffer is the checksum. -/
@[simp] theorem Md2Engine.loadChecksum_pendingBlock (e : Md2Engine) : e.loadChecksum.pendingBlock = e.checksum := by
  apply array_ext
  intro i hi
  simp [Md2Engine.loadChecksum, arrayRead_arrayFill, hi]

/-- The padding step writes `k` from `PL` on and leaves the bytes below. -/
theorem Md2Engine.arrayRead_pad (e : Md2Engine) (i : Nat) :
    arrayRead e.pad.pendingBlock i =
      if e.pendingLength ≤ i ∧ i < 16 then BitVec.ofNat 8 (16 - e.pendingLength) else arrayRead e.pendingBlock i := by
  simp only [Md2Engine.pad, arrayRead_arrayFill]
  by_cases h : e.pendingLength ≤ i ∧ i < 16
  · rw [if_pos h, if_pos (by omega)]
  · rw [if_neg h, if_neg (by omega)]

/-- The writes of `RESET.MD2` give the reset state (R85, 10_state.md R29). -/
theorem Md2Engine.clear_eq_reset (e : Md2Engine) : e.clear = Md2Engine.reset := by
  have fill (n : Nat) (a : Vector Byte n) : arrayFill a 0 n (fun _ => 0#8) = Vector.replicate n 0#8 := by
    apply array_ext
    intro i hi
    simp [arrayRead_arrayFill, hi, arrayRead_replicate_zero]
  unfold Md2Engine.clear
  simp [Md2Engine.reset, fill]

/-! ### `COMPRESS2` (R81) -/

/-- The three regions after the loading loops (20_memory.md R31). -/
theorem arrayRead_compress2Load (x : Vector Byte 48) (pb : Vector Byte 16) (i : Nat) :
    arrayRead (compress2Load x pb) i =
      if i < 16 then arrayRead x i
      else if i < 32 then arrayRead pb (i - 16)
      else if i < 48 then arrayRead x (i - 32) ^^^ arrayRead pb (i - 32)
      else 0 := by
  simp only [compress2Load, arrayRead_arrayFill]
  by_cases h1 : i < 16
  · rw [if_neg (by omega), if_neg (by omega), if_pos h1]
  · by_cases h2 : i < 32
    · rw [if_neg (by omega), if_pos (by omega), if_neg h1, if_pos h2]
    · by_cases h3 : i < 48
      · rw [if_pos (by omega), if_neg (by omega), if_pos (by omega), if_neg h1, if_neg h2, if_pos h3]
        congr 2
      · rw [if_neg (by omega), if_neg (by omega), if_neg h1, if_neg h2, if_neg h3, arrayRead_beyond _ (by omega)]

/-- The bytes of a round: each is the old byte exclusive-ORed with the table entry of the byte just written before
it (of `t` for the first). -/
theorem compress2Bytes_getD (l : List Byte) (t : Byte) (i : Nat) (h : i < l.length) :
    (compress2Bytes l t).1.getD i 0 =
      l.getD i 0 ^^^ sBox (if i = 0 then t else (compress2Bytes l t).1.getD (i - 1) 0) := by
  induction l generalizing t i with
  | nil => simp at h
  | cons x xs ih =>
    cases i with
    | zero => simp [compress2Bytes]
    | succ i =>
      have := ih (x ^^^ sBox t) i (by simpa using h)
      simp only [compress2Bytes, List.getD_cons_succ, this]
      cases i with
      | zero => simp
      | succ i => simp

@[simp] theorem compress2Bytes_length (l : List Byte) (t : Byte) : (compress2Bytes l t).1.length = l.length := by
  induction l generalizing t with
  | nil => rfl
  | cons x xs ih => simp [compress2Bytes, ih]

/-- `t` after the loop is the last byte written. -/
theorem compress2Bytes_carry (l : List Byte) (t : Byte) :
    (compress2Bytes l t).2 = (compress2Bytes l t).1.getLastD t := by
  induction l generalizing t with
  | nil => rfl
  | cons x xs ih => simp only [compress2Bytes, ih, List.getLastD_cons]

@[simp] theorem compress2Round_length (st : List Byte × Byte) (j : Nat) :
    (compress2Round st j).1.length = st.1.length := by
  simp [compress2Round]

theorem compress2Rounds_length (l : List Byte) : (compress2Rounds l).1.length = l.length := by
  have fold (js : List Nat) (st : List Byte × Byte) : (js.foldl compress2Round st).1.length = st.1.length := by
    induction js generalizing st with
    | nil => rfl
    | cons j js ih => rw [List.foldl_cons, ih, compress2Round_length]
  exact fold _ _

/-- `COMPRESS2` leaves in `X` the bytes of the eighteen rounds. -/
theorem arrayRead_compress2 (x : Vector Byte 48) (pb : Vector Byte 16) (i : Nat) (h : i < 48) :
    arrayRead (compress2 x pb) i = (compress2Rounds (compress2Load x pb).toList).1.getD i 0 := by
  unfold compress2
  simp [arrayRead_arrayFill, h]

/-- `COMPRESS2` reads the hash region and the block only: what the block and xor regions held is overwritten. -/
theorem compress2_of_hash_region (x y : Vector Byte 48) (pb : Vector Byte 16)
    (h : ∀ i < 16, arrayRead x i = arrayRead y i) : compress2 x pb = compress2 y pb := by
  have hload : compress2Load x pb = compress2Load y pb := by
    apply array_ext
    intro i _
    simp only [arrayRead_compress2Load]
    by_cases h1 : i < 16
    · simp [h1, h i h1]
    · by_cases h3 : i < 48
      · simp [h1, h3, h (i - 32) (by omega)]
      · simp [h1, h3]
  apply array_ext
  intro i hi
  rw [arrayRead_compress2 _ _ _ hi, arrayRead_compress2 _ _ _ hi, hload]

/-! ### `CHECKSUM2` (R82) -/

/-- The bytes of a checksum update, as `compress2Bytes_getD`. -/
theorem checksum2Bytes_getD (c p : List Byte) (l : Byte) (i : Nat) (hc : i < c.length) (hp : i < p.length) :
    (checksum2Bytes c p l).getD i 0 =
      c.getD i 0 ^^^ sBox (p.getD i 0 ^^^ (if i = 0 then l else (checksum2Bytes c p l).getD (i - 1) 0)) := by
  induction c generalizing p l i with
  | nil => simp at hc
  | cons x xs ih =>
    cases p with
    | nil => simp at hp
    | cons q qs =>
      cases i with
      | zero => simp [checksum2Bytes]
      | succ i =>
        have := ih qs (x ^^^ sBox (q ^^^ l)) i (by simpa using hc) (by simpa using hp)
        simp only [checksum2Bytes, List.getD_cons_succ, this]
        cases i with
        | zero => simp
        | succ i => simp

/-- `CHECKSUM2` byte by byte (R82): the table entry of the block byte and the byte just written before it (the old
`C[15]` for the first), exclusive-ORed into the old byte. -/
theorem arrayRead_checksum2 (c pb : Vector Byte 16) (i : Nat) (h : i < 16) :
    arrayRead (checksum2 c pb) i =
      arrayRead c i ^^^ sBox (arrayRead pb i ^^^
        (if i = 0 then arrayRead c 15 else arrayRead (checksum2 c pb) (i - 1))) := by
  have read (j : Nat) (hj : j < 16) :
      arrayRead (checksum2 c pb) j = (checksum2Bytes c.toList pb.toList (arrayRead c 15)).getD j 0 := by
    unfold checksum2
    simp [arrayRead_arrayFill, hj]
  have toList (a : Vector Byte 16) : a.toList.getD i 0 = arrayRead a i := by
    simp [arrayRead_eq_getElem a h, h]
  rw [read i h, checksum2Bytes_getD _ _ _ i (by simpa using h) (by simpa using h), toList, toList]
  by_cases h0 : i = 0
  · simp [h0]
  · rw [if_neg h0, if_neg h0, read (i - 1) (by omega)]

/-! ### `ABSORB2` (R84) -/

/-- Absorbing a byte that does not fill the block. -/
theorem Md2Engine.absorb_within (e : Md2Engine) (b : Byte) (h : e.pendingLength + 1 ≠ 16) :
    e.absorb b =
      { e with
        pendingBlock := arrayWrite e.pendingBlock e.pendingLength b
        pendingLength := e.pendingLength + 1 } := by
  simp [Md2Engine.absorb, h]

/-- Absorbing the byte that fills the block. -/
theorem Md2Engine.absorb_full (e : Md2Engine) (b : Byte) (h : e.pendingLength + 1 = 16) :
    e.absorb b =
      { transformBuffer := compress2 e.transformBuffer (arrayWrite e.pendingBlock e.pendingLength b)
        checksum := checksum2 e.checksum (arrayWrite e.pendingBlock e.pendingLength b)
        pendingBlock := arrayWrite e.pendingBlock e.pendingLength b
        pendingLength := 0
        phase := e.phase } := by
  simp [Md2Engine.absorb, h, Md2Engine.block, Md2Engine.compress, Md2Engine.updateChecksum]

@[simp] theorem Md2Engine.absorb_phase (e : Md2Engine) (b : Byte) : (e.absorb b).phase = e.phase := by
  by_cases h : e.pendingLength + 1 = 16
  · rw [Md2Engine.absorb_full e b h]
  · rw [Md2Engine.absorb_within e b h]

/-- Every absorbed byte lands in the input buffer at `pendingLength`. -/
theorem Md2Engine.absorb_pendingBlock (e : Md2Engine) (b : Byte) :
    (e.absorb b).pendingBlock = arrayWrite e.pendingBlock e.pendingLength b := by
  by_cases h : e.pendingLength + 1 = 16
  · rw [Md2Engine.absorb_full e b h]
  · rw [Md2Engine.absorb_within e b h]

theorem Md2Engine.absorb_pendingLength (e : Md2Engine) (b : Byte) (h : e.pendingLength < 16) :
    (e.absorb b).pendingLength = (e.pendingLength + 1) % 16 := by
  by_cases hf : e.pendingLength + 1 = 16
  · rw [Md2Engine.absorb_full e b hf, hf]
  · rw [Md2Engine.absorb_within e b hf, Nat.mod_eq_of_lt (by omega)]

/-! ### A whole payload (R86, 40_interface.md R63, R73) -/

@[simp] theorem Md2Engine.absorbAll_nil (e : Md2Engine) : e.absorbAll [] = e := rfl

@[simp] theorem Md2Engine.absorbAll_cons (e : Md2Engine) (b : Byte) (p : List Byte) :
    e.absorbAll (b :: p) = (e.absorb b).absorbAll p := rfl

theorem Md2Engine.absorbAll_append (e : Md2Engine) (p q : List Byte) :
    e.absorbAll (p ++ q) = (e.absorbAll p).absorbAll q := by
  simp [Md2Engine.absorbAll, List.foldl_append]

@[simp] theorem Md2Engine.absorbAll_phase (e : Md2Engine) (p : List Byte) : (e.absorbAll p).phase = e.phase := by
  induction p generalizing e with
  | nil => rfl
  | cons b p ih => simp [ih]

theorem Md2Engine.absorbAll_pendingLength (e : Md2Engine) (p : List Byte) (h : e.pendingLength < 16) :
    (e.absorbAll p).pendingLength = (e.pendingLength + p.length) % 16 := by
  induction p generalizing e with
  | nil => simp [Nat.mod_eq_of_lt h]
  | cons b p ih =>
    have hb := Md2Engine.absorb_pendingLength e b h
    rw [Md2Engine.absorbAll_cons, ih (e.absorb b) (by omega), hb, List.length_cons]
    omega

/-- A payload that does not fill the block only fills the buffer. -/
theorem Md2Engine.absorbAll_within (e : Md2Engine) (p : List Byte) (h : e.pendingLength + p.length < 16) :
    (e.absorbAll p).transformBuffer = e.transformBuffer ∧ (e.absorbAll p).checksum = e.checksum ∧
    ∀ i, arrayRead (e.absorbAll p).pendingBlock i =
      if e.pendingLength ≤ i ∧ i < e.pendingLength + p.length then p.getD (i - e.pendingLength) 0
      else arrayRead e.pendingBlock i := by
  induction p generalizing e with
  | nil => exact ⟨rfl, rfl, fun i => by rw [if_neg (by simp), Md2Engine.absorbAll_nil]⟩
  | cons b p ih =>
    rw [List.length_cons] at h
    have hw := Md2Engine.absorb_within e b (by omega)
    obtain ⟨hx, hc, hpb⟩ := ih (e.absorb b) (by rw [hw]; simp only; omega)
    rw [Md2Engine.absorbAll_cons]
    refine ⟨by rw [hx, hw], by rw [hc, hw], fun i => ?_⟩
    rw [hpb i, hw]
    simp only [arrayRead_arrayWrite, List.length_cons]
    by_cases h1 : e.pendingLength + 1 ≤ i ∧ i < e.pendingLength + 1 + p.length
    · rw [if_pos h1, if_pos (by omega), show i - e.pendingLength = i - (e.pendingLength + 1) + 1 by omega,
        List.getD_cons_succ]
    · rw [if_neg h1]
      by_cases h2 : e.pendingLength = i
      · subst h2
        rw [if_pos ⟨rfl, by omega⟩, if_pos (by omega)]
        simp
      · rw [if_neg (by omega), if_neg (by omega)]

/-- The accepted `FINALIZE.MD2` in one formula: the padded block, then the checksum block. -/
theorem Md2Engine.finalize_eq (e : Md2Engine) :
    e.finalize =
      { transformBuffer :=
          compress2 (compress2 e.transformBuffer e.pad.pendingBlock) (checksum2 e.checksum e.pad.pendingBlock)
        checksum := checksum2 e.checksum e.pad.pendingBlock
        pendingBlock := checksum2 e.checksum e.pad.pendingBlock
        pendingLength := 0
        phase := .finalized } := by
  simp [Md2Engine.finalize, Md2Engine.compress]

end Sys2Proof.Machine
end

