-- ==== Sys2Proof/Laws/Md4.lean ====
section
/-! SUPPORT. What the micro-operations of the MD4 engine change, and what they leave alone (42_md4_engine.md). -/

namespace Sys2Proof.Machine

/-! ### Frames of the block processor (R106, R110) -/

@[simp] theorem Md4Engine.block_words (e : Md4Engine) : e.block.words = block4 e.words e.pendingBlock := by
  simp only [Md4Engine.block]
@[simp] theorem Md4Engine.block_pendingBlock (e : Md4Engine) : e.block.pendingBlock = e.pendingBlock := by
  simp only [Md4Engine.block]
@[simp] theorem Md4Engine.block_pendingLength (e : Md4Engine) : e.block.pendingLength = e.pendingLength := by
  simp only [Md4Engine.block]
@[simp] theorem Md4Engine.block_totalBitLength (e : Md4Engine) : e.block.totalBitLength = e.totalBitLength := by
  simp only [Md4Engine.block]
@[simp] theorem Md4Engine.block_phase (e : Md4Engine) : e.block.phase = e.phase := by
  simp only [Md4Engine.block]
@[simp] theorem Md4Engine.finalize_phase (e : Md4Engine) : e.finalize.phase = .finalized := by
  simp only [Md4Engine.finalize]
@[simp] theorem Md4Engine.digestBytes_length (e : Md4Engine) : e.digestBytes.length = 16 := by
  simp [Md4Engine.digestBytes]

theorem md4Target_lt (n : Nat) : md4Target n < 4 := Nat.mod_lt _ (by decide)

/-- A step replaces its target word and leaves the three others. -/
theorem arrayRead_step4 (xw : Vector Word 16) (v : Vector Word 4) (n j : Nat) :
    arrayRead (step4 xw v n) j = if md4Target n = j then step4Value xw v n else arrayRead v j := by
  have := md4Target_lt n
  rw [step4, arrayRead_arrayWrite]
  by_cases h : md4Target n = j
  · rw [if_pos h, if_pos ⟨h, by omega⟩]
  · rw [if_neg h, if_neg (by omega)]

/-- `BLOCK4` adds the working words after step 47 into the state words. -/
theorem arrayRead_block4 (words : Vector Word 4) (pb : Vector Byte 64) (q : Nat) (h : q < 4) :
    arrayRead (block4 words pb) q =
      arrayRead words q + arrayRead (md4Rounds (md4Schedule pb) words) q := by
  unfold block4
  simp [arrayRead_arrayFill, h]

/-- The writes of `RESET.MD4` give the reset state (R113, 10_state.md R29). -/
theorem Md4Engine.clear_eq_reset (e : Md4Engine) : e.clear = Md4Engine.reset := by
  have hpb : arrayFill e.pendingBlock 0 64 (fun _ => 0#8) = Vector.replicate 64 0#8 := by
    apply array_ext
    intro i hi
    simp [arrayRead_arrayFill, hi, arrayRead_replicate_zero]
  have hw : arrayWrite (arrayWrite (arrayWrite (arrayWrite e.words 0 0x67452301#32) 1 0xEFCDAB89#32) 2 0x98BADCFE#32) 3
      0x10325476#32 = md4InitialWords := by
    apply array_ext
    intro i hi
    simp only [arrayRead_arrayWrite]
    match i, hi with
    | 0, _ => rfl
    | 1, _ => rfl
    | 2, _ => rfl
    | 3, _ => rfl
  unfold Md4Engine.clear
  simp [Md4Engine.reset, hpb, hw]

/-! ### `PADABSORB4` (R112) -/

/-- Taking a byte that does not fill the block. -/
theorem Md4Engine.padAbsorb_within (e : Md4Engine) (b : Byte) (h : e.pendingLength + 1 ≠ 64) :
    e.padAbsorb b =
      { e with
        pendingBlock := arrayWrite e.pendingBlock e.pendingLength b
        pendingLength := e.pendingLength + 1 } := by
  simp [Md4Engine.padAbsorb, h]

/-- Taking the byte that fills the block. -/
theorem Md4Engine.padAbsorb_full (e : Md4Engine) (b : Byte) (h : e.pendingLength + 1 = 64) :
    e.padAbsorb b =
      { e with
        words := block4 e.words (arrayWrite e.pendingBlock e.pendingLength b)
        pendingBlock := arrayWrite e.pendingBlock e.pendingLength b
        pendingLength := 0 } := by
  simp [Md4Engine.padAbsorb, h, Md4Engine.block]

@[simp] theorem Md4Engine.padAbsorb_phase (e : Md4Engine) (b : Byte) : (e.padAbsorb b).phase = e.phase := by
  by_cases h : e.pendingLength + 1 = 64
  · rw [Md4Engine.padAbsorb_full e b h]
  · rw [Md4Engine.padAbsorb_within e b h]

@[simp] theorem Md4Engine.padAbsorb_totalBitLength (e : Md4Engine) (b : Byte) :
    (e.padAbsorb b).totalBitLength = e.totalBitLength := by
  by_cases h : e.pendingLength + 1 = 64
  · rw [Md4Engine.padAbsorb_full e b h]
  · rw [Md4Engine.padAbsorb_within e b h]

theorem Md4Engine.padAbsorb_pendingLength (e : Md4Engine) (b : Byte) (h : e.pendingLength < 64) :
    (e.padAbsorb b).pendingLength = (e.pendingLength + 1) % 64 := by
  by_cases hf : e.pendingLength + 1 = 64
  · rw [Md4Engine.padAbsorb_full e b hf, hf]
  · rw [Md4Engine.padAbsorb_within e b hf, Nat.mod_eq_of_lt (by omega)]

/-- The padding bytes are taken in order, like a payload that is not counted. -/
def Md4Engine.padAbsorbAll (e : Md4Engine) (p : List Byte) : Md4Engine := p.foldl Md4Engine.padAbsorb e

@[simp] theorem Md4Engine.padAbsorbAll_nil (e : Md4Engine) : e.padAbsorbAll [] = e := rfl

@[simp] theorem Md4Engine.padAbsorbAll_cons (e : Md4Engine) (b : Byte) (p : List Byte) :
    e.padAbsorbAll (b :: p) = (e.padAbsorb b).padAbsorbAll p := rfl

theorem Md4Engine.padAbsorbAll_append (e : Md4Engine) (p q : List Byte) :
    e.padAbsorbAll (p ++ q) = (e.padAbsorbAll p).padAbsorbAll q := by
  simp [Md4Engine.padAbsorbAll, List.foldl_append]

@[simp] theorem Md4Engine.padAbsorbAll_phase (e : Md4Engine) (p : List Byte) :
    (e.padAbsorbAll p).phase = e.phase := by
  induction p generalizing e with
  | nil => rfl
  | cons b p ih => simp [ih]

@[simp] theorem Md4Engine.padAbsorbAll_totalBitLength (e : Md4Engine) (p : List Byte) :
    (e.padAbsorbAll p).totalBitLength = e.totalBitLength := by
  induction p generalizing e with
  | nil => rfl
  | cons b p ih => simp [ih]

theorem Md4Engine.padAbsorbAll_pendingLength (e : Md4Engine) (p : List Byte) (h : e.pendingLength < 64) :
    (e.padAbsorbAll p).pendingLength = (e.pendingLength + p.length) % 64 := by
  induction p generalizing e with
  | nil => simp [Nat.mod_eq_of_lt h]
  | cons b p ih =>
    have hb := Md4Engine.padAbsorb_pendingLength e b h
    rw [Md4Engine.padAbsorbAll_cons, ih (e.padAbsorb b) (by omega), hb, List.length_cons]
    omega

/-- Bytes that do not fill the block only fill the buffer. -/
theorem Md4Engine.padAbsorbAll_within (e : Md4Engine) (p : List Byte) (h : e.pendingLength + p.length < 64) :
    (e.padAbsorbAll p).words = e.words ∧
    ∀ i, arrayRead (e.padAbsorbAll p).pendingBlock i =
      if e.pendingLength ≤ i ∧ i < e.pendingLength + p.length then p.getD (i - e.pendingLength) 0
      else arrayRead e.pendingBlock i := by
  induction p generalizing e with
  | nil => exact ⟨rfl, fun i => by rw [if_neg (by simp), Md4Engine.padAbsorbAll_nil]⟩
  | cons b p ih =>
    rw [List.length_cons] at h
    have hw := Md4Engine.padAbsorb_within e b (by omega)
    obtain ⟨hx, hpb⟩ := ih (e.padAbsorb b) (by rw [hw]; simp only; omega)
    rw [Md4Engine.padAbsorbAll_cons]
    refine ⟨by rw [hx, hw], fun i => ?_⟩
    rw [hpb i, hw]
    simp only [arrayRead_arrayWrite, List.length_cons]
    by_cases h1 : e.pendingLength + 1 ≤ i ∧ i < e.pendingLength + 1 + p.length
    · rw [if_pos h1, if_pos (by omega), show i - e.pendingLength = i - (e.pendingLength + 1) + 1 by omega,
        List.getD_cons_succ]
    · rw [if_neg h1]
      by_cases h2 : e.pendingLength = i
      · subst h2
        rw [if_pos ⟨rfl, by omega⟩, if_pos (by omega)]
        simp
      · rw [if_neg (by omega), if_neg (by omega)]

/-- The input buffer with bytes laid from `PL` on. -/
def Md4Engine.blockWith (e : Md4Engine) (p : List Byte) : Vector Byte 64 :=
  arrayFill e.pendingBlock e.pendingLength p.length fun i => p.getD (i - e.pendingLength) 0

/-- Bytes that fill the block exactly: the block is processed and the buffer is empty again. -/
theorem Md4Engine.padAbsorbAll_fill (e : Md4Engine) (p : List Byte) (h : e.pendingLength + p.length = 64)
    (hp : p ≠ []) :
    e.padAbsorbAll p =
      { e with
        words := block4 e.words (e.blockWith p)
        pendingBlock := e.blockWith p
        pendingLength := 0 } := by
  obtain ⟨q, b, rfl⟩ : ∃ q b, p = q ++ [b] := ⟨p.dropLast, p.getLast hp, (List.dropLast_append_getLast hp).symm⟩
  rw [List.length_append, List.length_singleton] at h
  obtain ⟨hw, hpb⟩ := Md4Engine.padAbsorbAll_within e q (by omega)
  have hpl : (e.padAbsorbAll q).pendingLength = e.pendingLength + q.length := by
    rw [Md4Engine.padAbsorbAll_pendingLength e q (by omega), Nat.mod_eq_of_lt (by omega)]
  have hblock : arrayWrite (e.padAbsorbAll q).pendingBlock (e.pendingLength + q.length) b = e.blockWith (q ++ [b]) := by
    apply array_ext
    intro i hi
    rw [arrayRead_arrayWrite, hpb i, Md4Engine.blockWith, arrayRead_arrayFill, List.length_append,
      List.length_singleton]
    by_cases h1 : e.pendingLength + q.length = i
    · rw [if_pos ⟨h1, hi⟩, if_pos (by omega), show i - e.pendingLength = q.length by omega]
      simp
    · rw [if_neg (by omega)]
      by_cases h2 : e.pendingLength ≤ i ∧ i < e.pendingLength + q.length
      · rw [if_pos h2, if_pos (by omega), List.getD_append _ _ _ _ (by omega)]
      · rw [if_neg h2, if_neg (by omega)]
  rw [Md4Engine.padAbsorbAll_append, Md4Engine.padAbsorbAll_cons, Md4Engine.padAbsorbAll_nil,
    Md4Engine.padAbsorb_full _ b (by omega), hpl, hblock, hw]
  simp

/-! ### `ABSORB4` (R111): a counted `PADABSORB4` -/

theorem Md4Engine.absorb_eq_padAbsorb (e : Md4Engine) (b : Byte) :
    e.absorb b = { e.padAbsorb b with totalBitLength := e.totalBitLength + 8 } := by
  by_cases h : e.pendingLength + 1 = 64
  · simp [Md4Engine.absorb, Md4Engine.padAbsorb, h, Md4Engine.block]
  · simp [Md4Engine.absorb, Md4Engine.padAbsorb, h]

/-- The bit count has no influence on how padding bytes are taken. -/
theorem Md4Engine.padAbsorb_setBits (e : Md4Engine) (n : DWord) (b : Byte) :
    Md4Engine.padAbsorb { e with totalBitLength := n } b = { e.padAbsorb b with totalBitLength := n } := by
  by_cases h : e.pendingLength + 1 = 64
  · simp [Md4Engine.padAbsorb, h, Md4Engine.block]
  · simp [Md4Engine.padAbsorb, h]

theorem Md4Engine.padAbsorbAll_setBits (e : Md4Engine) (n : DWord) (p : List Byte) :
    Md4Engine.padAbsorbAll { e with totalBitLength := n } p = { e.padAbsorbAll p with totalBitLength := n } := by
  induction p generalizing e with
  | nil => rfl
  | cons b p ih => rw [Md4Engine.padAbsorbAll_cons, Md4Engine.padAbsorb_setBits, ih, Md4Engine.padAbsorbAll_cons]

@[simp] theorem Md4Engine.absorb_phase (e : Md4Engine) (b : Byte) : (e.absorb b).phase = e.phase := by
  rw [Md4Engine.absorb_eq_padAbsorb, Md4Engine.padAbsorb_phase]

/-! ### A whole payload (R114, 40_interface.md R63, R73) -/

@[simp] theorem Md4Engine.absorbAll_nil (e : Md4Engine) : e.absorbAll [] = e := rfl

@[simp] theorem Md4Engine.absorbAll_cons (e : Md4Engine) (b : Byte) (p : List Byte) :
    e.absorbAll (b :: p) = (e.absorb b).absorbAll p := rfl

theorem Md4Engine.absorbAll_append (e : Md4Engine) (p q : List Byte) :
    e.absorbAll (p ++ q) = (e.absorbAll p).absorbAll q := by
  simp [Md4Engine.absorbAll, List.foldl_append]

/-- A payload is taken as padding bytes are, and the bit count grows by eight for each byte, modulo 2^64. -/
theorem Md4Engine.absorbAll_eq (e : Md4Engine) (p : List Byte) :
    e.absorbAll p =
      { e.padAbsorbAll p with totalBitLength := e.totalBitLength + BitVec.ofNat 64 (8 * p.length) } := by
  induction p generalizing e with
  | nil => simp
  | cons b p ih =>
    rw [Md4Engine.absorbAll_cons, ih, Md4Engine.absorb_eq_padAbsorb, Md4Engine.padAbsorbAll_setBits,
      Md4Engine.padAbsorbAll_cons]
    have hbits : e.totalBitLength + 8 + BitVec.ofNat 64 (8 * p.length) =
        e.totalBitLength + BitVec.ofNat 64 (8 * (b :: p).length) := by
      rw [BitVec.add_assoc, List.length_cons, show 8 * (p.length + 1) = 8 + 8 * p.length by omega, BitVec.ofNat_add]
      rfl
    simp only [hbits]

@[simp] theorem Md4Engine.absorbAll_phase (e : Md4Engine) (p : List Byte) : (e.absorbAll p).phase = e.phase := by
  rw [Md4Engine.absorbAll_eq, Md4Engine.padAbsorbAll_phase]

theorem Md4Engine.absorbAll_pendingLength (e : Md4Engine) (p : List Byte) (h : e.pendingLength < 64) :
    (e.absorbAll p).pendingLength = (e.pendingLength + p.length) % 64 := by
  rw [Md4Engine.absorbAll_eq, Md4Engine.padAbsorbAll_pendingLength e p h]

theorem Md4Engine.absorbAll_totalBitLength (e : Md4Engine) (p : List Byte) :
    (e.absorbAll p).totalBitLength = e.totalBitLength + BitVec.ofNat 64 (8 * p.length) := by
  rw [Md4Engine.absorbAll_eq]

/-! ### `FINALIZE.MD4` (R115) -/

/-- The loop `while PL != 56: PADABSORB4(0x00)` takes `(120 - PL) mod 64` zero bytes, whatever fuel beyond that it
is given. -/
theorem Md4Engine.padZeros_eq (fuel : Nat) (e : Md4Engine) (h : e.pendingLength < 64)
    (hf : (120 - e.pendingLength) % 64 ≤ fuel) :
    Md4Engine.padZeros fuel e = e.padAbsorbAll (List.replicate ((120 - e.pendingLength) % 64) 0x00) := by
  induction fuel generalizing e with
  | zero =>
    rw [Nat.le_zero.mp hf]
    rfl
  | succ fuel ih =>
    by_cases h56 : e.pendingLength = 56
    · simp [Md4Engine.padZeros, h56]
    · have hpl := Md4Engine.padAbsorb_pendingLength e 0x00 h
      have hcount : (120 - e.pendingLength) % 64 = (120 - (e.padAbsorb 0x00).pendingLength) % 64 + 1 := by omega
      rw [Md4Engine.padZeros, if_neg h56, ih _ (by omega) (by omega), hcount, List.replicate_succ,
        Md4Engine.padAbsorbAll_cons]

/-- Everything `FINALIZE.MD4` appends, for a pending length `p`: the `0x80` byte, `55 - p` or `119 - p` zero bytes, and
the length. -/
def md4Padding (p : Nat) (bits : DWord) : List Byte :=
  0x80 :: List.replicate ((119 - p) % 64) 0x00 ++ lengthBytes bits

/-- The accepted `FINALIZE.MD4` takes its padding bytes in order. -/
theorem Md4Engine.finalize_eq (e : Md4Engine) (h : e.pendingLength < 64) :
    e.finalize =
      { e.padAbsorbAll (md4Padding e.pendingLength e.totalBitLength) with phase := .finalized } := by
  have hpl := Md4Engine.padAbsorb_pendingLength e 0x80 h
  have hz : (120 - (e.padAbsorb 0x80).pendingLength) % 64 = (119 - e.pendingLength) % 64 := by omega
  have hpad : Md4Engine.padZeros 63 (e.padAbsorb 0x80) =
      (e.padAbsorb 0x80).padAbsorbAll (List.replicate ((119 - e.pendingLength) % 64) 0x00) := by
    rw [Md4Engine.padZeros_eq 63 _ (by omega) (by omega), hz]
  simp only [Md4Engine.finalize, hpad, md4Padding]
  rw [← Md4Engine.padAbsorbAll, ← Md4Engine.padAbsorbAll_append, ← Md4Engine.padAbsorbAll_cons, List.cons_append]

@[simp] theorem md4Padding_length (p : Nat) (bits : DWord) : (md4Padding p bits).length = (119 - p) % 64 + 9 := by
  simp [md4Padding]

theorem Md4Engine.finalize_pendingLength (e : Md4Engine) (h : e.pendingLength < 64) :
    e.finalize.pendingLength = 0 := by
  rw [Md4Engine.finalize_eq e h]
  simp only [Md4Engine.padAbsorbAll_pendingLength e _ h, md4Padding_length]
  omega

theorem Md4Engine.finalize_totalBitLength (e : Md4Engine) (h : e.pendingLength < 64) :
    e.finalize.totalBitLength = e.totalBitLength := by
  rw [Md4Engine.finalize_eq e h]
  simp only [Md4Engine.padAbsorbAll_totalBitLength]

end Sys2Proof.Machine
end

