-- ==== Sys2Proof/Laws/PerInstr.lean ====
section
/-! SUPPORT. The lemmas per command: the word a command is encoded to lies in its own row of the opcode map
(30_encoding.md R57). -/

namespace Sys2Proof.Laws.EncodedRow

/-- The encoded word of a well-formed command is the command of the row of its operation and engine, and of no other
row. -/
def Statement (i : Instr) : Prop :=
  i.wellFormed = true → ∀ r ∈ opcodeRows, (encode i).1 &&& r.mask = r.pattern ↔ r.op = i.op ∧ r.alg = i.alg

/-- The same for any operation, engine and length. -/
theorem commandWord_row (op : Op) (a : Algorithm) (len : Nat) (h : len ≤ maxLen)
    (hl : op.takesNoLen = true → len = 0) (r : OpcodeRow) (hr : r ∈ opcodeRows) :
    commandWord op a len &&& r.mask = r.pattern ↔ r.op = op ∧ r.alg = a := by
  rw [OpcodeRow.covers_iff_fields _ r hr, opField_commandWord op a len h, algField_commandWord op a len h,
    rsvField_commandWord op a len h, lenField_commandWord op a len h, Op.number_inj, Algorithm.number_inj]
  constructor
  · rintro ⟨h1, h2, -⟩
    exact ⟨h1.symm, h2.symm⟩
  · rintro ⟨rfl, rfl⟩
    exact ⟨rfl, rfl, rfl, hl⟩

theorem resetMd2 : Statement .resetMd2 := fun _ r hr =>
  commandWord_row .reset .md2 0 (Nat.zero_le _) (fun _ => rfl) r hr

theorem feedMd2 (payload : List Byte) : Statement (.feedMd2 payload) := fun h r hr =>
  commandWord_row .feed .md2 payload.length (of_decide_eq_true h) (fun h' => by cases h') r hr

theorem finalizeMd2 : Statement .finalizeMd2 := fun _ r hr =>
  commandWord_row .finalize .md2 0 (Nat.zero_le _) (fun _ => rfl) r hr

theorem digestMd2 (cap : Nat) : Statement (.digestMd2 cap) := fun h r hr =>
  commandWord_row .digest .md2 cap (of_decide_eq_true h) (fun h' => by cases h') r hr

theorem blocksizeMd2 : Statement .blocksizeMd2 := fun _ r hr =>
  commandWord_row .blocksize .md2 0 (Nat.zero_le _) (fun _ => rfl) r hr

theorem digestbitsMd2 : Statement .digestbitsMd2 := fun _ r hr =>
  commandWord_row .digestbits .md2 0 (Nat.zero_le _) (fun _ => rfl) r hr

theorem resetMd4 : Statement .resetMd4 := fun _ r hr =>
  commandWord_row .reset .md4 0 (Nat.zero_le _) (fun _ => rfl) r hr

theorem feedMd4 (payload : List Byte) : Statement (.feedMd4 payload) := fun h r hr =>
  commandWord_row .feed .md4 payload.length (of_decide_eq_true h) (fun h' => by cases h') r hr

theorem finalizeMd4 : Statement .finalizeMd4 := fun _ r hr =>
  commandWord_row .finalize .md4 0 (Nat.zero_le _) (fun _ => rfl) r hr

theorem digestMd4 (cap : Nat) : Statement (.digestMd4 cap) := fun h r hr =>
  commandWord_row .digest .md4 cap (of_decide_eq_true h) (fun h' => by cases h') r hr

theorem blocksizeMd4 : Statement .blocksizeMd4 := fun _ r hr =>
  commandWord_row .blocksize .md4 0 (Nat.zero_le _) (fun _ => rfl) r hr

theorem digestbitsMd4 : Statement .digestbitsMd4 := fun _ r hr =>
  commandWord_row .digestbits .md4 0 (Nat.zero_le _) (fun _ => rfl) r hr

end Sys2Proof.Laws.EncodedRow
end

