-- ==== Sys2Proof/Laws/Reference.lean ====
section
/-! SUPPORT. How the engines' state after absorbing a message relates to the blocks of the message (41_md2_engine.md
R91, 42_md4_engine.md R119). -/

namespace Sys2Proof.Machine

/-! ### Blocks of a message -/

theorem arrayRead_messageBlock (n : Nat) (m : List Byte) (r : Nat) {i : Nat} (h : i < n) :
    arrayRead (messageBlock n m r) i = m.getD (n * r + i) 0 := by
  rw [messageBlock, arrayRead_ofFn _ h]

/-- A block that a message has whole is the same in every longer message. -/
theorem messageBlock_append (n : Nat) (m p : List Byte) (r : Nat) (h : n * (r + 1) ≤ m.length) :
    messageBlock n (m ++ p) r = messageBlock n m r := by
  apply array_ext
  intro i hi
  rw [Nat.mul_succ] at h
  rw [arrayRead_messageBlock n _ r hi, arrayRead_messageBlock n _ r hi, List.getD_append _ _ _ _ (by omega)]

theorem md2Blocks_succ (m : List Byte) (q : Nat) :
    md2Blocks m (q + 1) =
      (compress2 (md2Blocks m q).1 (messageBlock 16 m q), checksum2 (md2Blocks m q).2 (messageBlock 16 m q)) := by
  rw [md2Blocks, List.range_succ, List.foldl_append]
  rfl

theorem md2Blocks_append (m p : List Byte) (q : Nat) (h : 16 * q ≤ m.length) :
    md2Blocks (m ++ p) q = md2Blocks m q := by
  induction q with
  | zero => simp [md2Blocks]
  | succ q ih => rw [md2Blocks_succ, md2Blocks_succ, ih (by omega), messageBlock_append 16 m p q (by omega)]

theorem md4Blocks_succ (m : List Byte) (q : Nat) :
    md4Blocks m (q + 1) = block4 (md4Blocks m q) (messageBlock 64 m q) := by
  rw [md4Blocks, List.range_succ, List.foldl_append]
  rfl

theorem md4Blocks_append (m p : List Byte) (q : Nat) (h : 64 * q ≤ m.length) :
    md4Blocks (m ++ p) q = md4Blocks m q := by
  induction q with
  | zero => simp [md4Blocks]
  | succ q ih => rw [md4Blocks_succ, md4Blocks_succ, ih (by omega), messageBlock_append 64 m p q (by omega)]

/-! ### What the MD2 engine has absorbed -/

/-- The state of `E2` once it has absorbed the message `m` after its reset: the whole blocks are processed, the rest
waits in the input buffer. -/
structure Md2Engine.Absorbed (e : Md2Engine) (m : List Byte) : Prop where
  transformBuffer : e.transformBuffer = (md2Blocks m (m.length / 16)).1
  checksum : e.checksum = (md2Blocks m (m.length / 16)).2
  pendingLength : e.pendingLength = m.length % 16
  pendingBlock : ∀ i < m.length % 16, arrayRead e.pendingBlock i = m.getD (16 * (m.length / 16) + i) 0

theorem Md2Engine.absorbed_reset : Md2Engine.reset.Absorbed [] :=
  ⟨rfl, rfl, rfl, fun i hi => absurd hi (by simp)⟩

theorem Md2Engine.Absorbed.absorb {e : Md2Engine} {m : List Byte} (h : e.Absorbed m) (b : Byte) :
    (e.absorb b).Absorbed (m ++ [b]) := by
  have hpl := h.pendingLength
  have hblock : ∀ i < m.length % 16 + 1,
      arrayRead (arrayWrite e.pendingBlock e.pendingLength b) i = (m ++ [b]).getD (16 * (m.length / 16) + i) 0 := by
    intro i hi
    rw [arrayRead_arrayWrite]
    by_cases hi' : e.pendingLength = i
    · rw [if_pos ⟨hi', by omega⟩, List.getD_append_right _ _ _ _ (by omega),
        show 16 * (m.length / 16) + i - m.length = 0 by omega]
      rfl
    · rw [if_neg (by omega), h.pendingBlock i (by omega), List.getD_append _ _ _ _ (by omega)]
  by_cases hf : e.pendingLength + 1 = 16
  · have hq : (m ++ [b]).length / 16 = m.length / 16 + 1 := by rw [List.length_append, List.length_singleton]; omega
    have hmb : arrayWrite e.pendingBlock e.pendingLength b = messageBlock 16 (m ++ [b]) (m.length / 16) := by
      apply array_ext
      intro i hi
      rw [arrayRead_messageBlock 16 _ _ hi, hblock i (by omega)]
    have hold : md2Blocks (m ++ [b]) (m.length / 16) = md2Blocks m (m.length / 16) :=
      md2Blocks_append m [b] _ (by omega)
    rw [Md2Engine.absorb_full e b hf]
    constructor
    · rw [hq, md2Blocks_succ, hold, ← hmb, ← h.transformBuffer]
    · rw [hq, md2Blocks_succ, hold, ← hmb, ← h.checksum]
    · rw [List.length_append, List.length_singleton]
      change 0 = _
      omega
    · rw [List.length_append, List.length_singleton]
      intro i hi
      omega
  · have hq : (m ++ [b]).length / 16 = m.length / 16 := by rw [List.length_append, List.length_singleton]; omega
    have hold : md2Blocks (m ++ [b]) (m.length / 16) = md2Blocks m (m.length / 16) :=
      md2Blocks_append m [b] _ (by omega)
    rw [Md2Engine.absorb_within e b hf]
    constructor
    · rw [hq, hold, ← h.transformBuffer]
    · rw [hq, hold, ← h.checksum]
    · rw [List.length_append, List.length_singleton]
      change e.pendingLength + 1 = _
      omega
    · rw [hq, List.length_append, List.length_singleton]
      intro i hi
      exact hblock i (by omega)

/-- Absorbing a payload after a message is absorbing the message with the payload behind it. -/
theorem Md2Engine.Absorbed.absorbAll {e : Md2Engine} {m : List Byte} (h : e.Absorbed m) (p : List Byte) :
    (e.absorbAll p).Absorbed (m ++ p) := by
  induction p generalizing e m with
  | nil => rwa [Md2Engine.absorbAll_nil, List.append_nil]
  | cons b p ih =>
    rw [Md2Engine.absorbAll_cons, show m ++ b :: p = m ++ [b] ++ p by simp]
    exact ih (h.absorb b)

/-- Padding the rest of an absorbed message gives the last block of the padded message (R87, R91). -/
theorem Md2Engine.Absorbed.pad_pendingBlock {e : Md2Engine} {m : List Byte} (h : e.Absorbed m) :
    e.pad.pendingBlock = messageBlock 16 (md2Padded m) (m.length / 16) := by
  apply array_ext
  intro i hi
  rw [Md2Engine.arrayRead_pad, arrayRead_messageBlock 16 _ _ hi, h.pendingLength, md2Padded]
  by_cases h1 : m.length % 16 ≤ i
  · rw [if_pos ⟨h1, hi⟩, List.getD_append_right _ _ _ _ (by omega), List.getD_eq_getElem?_getD,
      List.getElem?_replicate, if_pos (by omega)]
    rfl
  · rw [if_neg (by omega), h.pendingBlock i (by omega), List.getD_append _ _ _ _ (by omega)]

/-- `FINALIZE.MD2` after an absorbed message leaves the message's digest in `X[0..15]`. -/
theorem Md2Engine.Absorbed.finalize_digestBytes {e : Md2Engine} {m : List Byte} (h : e.Absorbed m) :
    e.finalize.digestBytes = md2Digest m := by
  have hl : (md2Padded m).length = 16 * (m.length / 16 + 1) := by
    simp [md2Padded]
    omega
  have hold : md2Blocks (md2Padded m) (m.length / 16) = md2Blocks m (m.length / 16) :=
    md2Blocks_append m _ _ (by omega)
  rw [Md2Engine.finalize_eq]
  simp only [Md2Engine.digestBytes, md2Digest, hl]
  rw [show 16 * (m.length / 16 + 1) / 16 = m.length / 16 + 1 by omega, md2Blocks_succ, hold, ← h.pad_pendingBlock,
    ← h.transformBuffer, ← h.checksum]

/-! ### What the MD4 engine has absorbed -/

/-- The state of `E4`'s hash words and input buffer once the message `m` has been taken after its reset, counted or
not. -/
structure Md4Engine.Absorbed (e : Md4Engine) (m : List Byte) : Prop where
  words : e.words = md4Blocks m (m.length / 64)
  pendingLength : e.pendingLength = m.length % 64
  pendingBlock : ∀ i < m.length % 64, arrayRead e.pendingBlock i = m.getD (64 * (m.length / 64) + i) 0

theorem Md4Engine.absorbed_reset : Md4Engine.reset.Absorbed [] :=
  ⟨rfl, rfl, fun i hi => absurd hi (by simp)⟩

theorem Md4Engine.Absorbed.padAbsorb {e : Md4Engine} {m : List Byte} (h : e.Absorbed m) (b : Byte) :
    (e.padAbsorb b).Absorbed (m ++ [b]) := by
  have hpl := h.pendingLength
  have hblock : ∀ i < m.length % 64 + 1,
      arrayRead (arrayWrite e.pendingBlock e.pendingLength b) i = (m ++ [b]).getD (64 * (m.length / 64) + i) 0 := by
    intro i hi
    rw [arrayRead_arrayWrite]
    by_cases hi' : e.pendingLength = i
    · rw [if_pos ⟨hi', by omega⟩, List.getD_append_right _ _ _ _ (by omega),
        show 64 * (m.length / 64) + i - m.length = 0 by omega]
      rfl
    · rw [if_neg (by omega), h.pendingBlock i (by omega), List.getD_append _ _ _ _ (by omega)]
  by_cases hf : e.pendingLength + 1 = 64
  · have hq : (m ++ [b]).length / 64 = m.length / 64 + 1 := by rw [List.length_append, List.length_singleton]; omega
    have hmb : arrayWrite e.pendingBlock e.pendingLength b = messageBlock 64 (m ++ [b]) (m.length / 64) := by
      apply array_ext
      intro i hi
      rw [arrayRead_messageBlock 64 _ _ hi, hblock i (by omega)]
    have hold : md4Blocks (m ++ [b]) (m.length / 64) = md4Blocks m (m.length / 64) :=
      md4Blocks_append m [b] _ (by omega)
    rw [Md4Engine.padAbsorb_full e b hf]
    constructor
    · rw [hq, md4Blocks_succ, hold, ← hmb, ← h.words]
    · rw [List.length_append, List.length_singleton]
      change 0 = _
      omega
    · rw [List.length_append, List.length_singleton]
      intro i hi
      omega
  · have hq : (m ++ [b]).length / 64 = m.length / 64 := by rw [List.length_append, List.length_singleton]; omega
    have hold : md4Blocks (m ++ [b]) (m.length / 64) = md4Blocks m (m.length / 64) :=
      md4Blocks_append m [b] _ (by omega)
    rw [Md4Engine.padAbsorb_within e b hf]
    constructor
    · rw [hq, hold, ← h.words]
    · rw [List.length_append, List.length_singleton]
      change e.pendingLength + 1 = _
      omega
    · rw [hq, List.length_append, List.length_singleton]
      intro i hi
      exact hblock i (by omega)

theorem Md4Engine.Absorbed.padAbsorbAll {e : Md4Engine} {m : List Byte} (h : e.Absorbed m) (p : List Byte) :
    (e.padAbsorbAll p).Absorbed (m ++ p) := by
  induction p generalizing e m with
  | nil => rwa [Md4Engine.padAbsorbAll_nil, List.append_nil]
  | cons b p ih =>
    rw [Md4Engine.padAbsorbAll_cons, show m ++ b :: p = m ++ [b] ++ p by simp]
    exact ih (h.padAbsorb b)

theorem Md4Engine.Absorbed.absorbAll {e : Md4Engine} {m : List Byte} (h : e.Absorbed m) (p : List Byte) :
    (e.absorbAll p).Absorbed (m ++ p) := by
  have hp := h.padAbsorbAll p
  rw [Md4Engine.absorbAll_eq]
  exact ⟨hp.words, hp.pendingLength, hp.pendingBlock⟩

/-- `FINALIZE.MD4` after an absorbed message, its length counted, leaves the message's digest in the words. -/
theorem Md4Engine.Absorbed.finalize_digestBytes {e : Md4Engine} {m : List Byte} (h : e.Absorbed m)
    (hb : e.totalBitLength = BitVec.ofNat 64 (8 * m.length)) : e.finalize.digestBytes = md4Digest m := by
  have hl : e.pendingLength < 64 := by
    rw [h.pendingLength]
    omega
  have hp := h.padAbsorbAll (md4Padding e.pendingLength e.totalBitLength)
  have hpad : m ++ md4Padding e.pendingLength e.totalBitLength = md4Padded m := by
    rw [md4Padding, md4Padded, hb, h.pendingLength, md4Zeros]
    simp
  rw [hpad] at hp
  rw [Md4Engine.finalize_eq _ hl]
  simp only [Md4Engine.digestBytes, md4Digest, hp.words]

end Sys2Proof.Machine
end

