-- ==== Sys2Proof/Laws/Step.lean ====
section
/-! SUPPORT. Everything a command and a step can do, said once for later proofs. -/

namespace Sys2Proof.Machine

/-! ### The commands of `E2` -/

theorem execFeedMd2_cases (p : List Byte) (s : State) :
    (s.e2.phase = .absorbing ∧ s.e2.pendingLength < 16 ∧
      execFeedMd2 p s = .next (respond .ok .none { s with e2 := s.e2.absorbAll p })) ∨
    (s.e2.phase = .absorbing ∧ 16 ≤ s.e2.pendingLength ∧
      execFeedMd2 p s = .next (respond .invalidState .none (setPhase .md2 .faulted s))) ∨
    (s.e2.phase = .finalized ∧ execFeedMd2 p s = .next (respond .finalized .none s)) ∨
    (s.e2.phase = .faulted ∧ execFeedMd2 p s = .next (respond .invalidState .none s)) := by
  rcases absorbCheck_cases .md2 s with ⟨h, hp, hc⟩ | ⟨h, hp, hc⟩ | ⟨h, hc⟩ | ⟨h, hc⟩
  · exact .inl ⟨h, hp, by simp [execFeedMd2, hc]⟩
  · exact .inr (.inl ⟨h, hp, by simp [execFeedMd2, hc]⟩)
  · exact .inr (.inr (.inl ⟨h, by simp [execFeedMd2, hc]⟩))
  · exact .inr (.inr (.inr ⟨h, by simp [execFeedMd2, hc]⟩))

theorem execFinalizeMd2_cases (s : State) :
    (s.e2.phase = .absorbing ∧ s.e2.pendingLength < 16 ∧
      execFinalizeMd2 s = .next (respond .ok .none { s with e2 := s.e2.finalize })) ∨
    (s.e2.phase = .absorbing ∧ 16 ≤ s.e2.pendingLength ∧
      execFinalizeMd2 s = .next (respond .invalidState .none (setPhase .md2 .faulted s))) ∨
    (s.e2.phase = .finalized ∧ execFinalizeMd2 s = .next (respond .finalized .none s)) ∨
    (s.e2.phase = .faulted ∧ execFinalizeMd2 s = .next (respond .invalidState .none s)) := by
  rcases absorbCheck_cases .md2 s with ⟨h, hp, hc⟩ | ⟨h, hp, hc⟩ | ⟨h, hc⟩ | ⟨h, hc⟩
  · exact .inl ⟨h, hp, by simp [execFinalizeMd2, hc]⟩
  · exact .inr (.inl ⟨h, hp, by simp [execFinalizeMd2, hc]⟩)
  · exact .inr (.inr (.inl ⟨h, by simp [execFinalizeMd2, hc]⟩))
  · exact .inr (.inr (.inr ⟨h, by simp [execFinalizeMd2, hc]⟩))

theorem execDigestMd2_cases (cap : Nat) (s : State) :
    (s.e2.phase = .finalized ∧ 16 ≤ cap ∧
      execDigestMd2 cap s = .next (respond .ok (.bytes s.e2.digestBytes) s)) ∨
    (s.e2.phase = .absorbing ∧ 16 ≤ cap ∧
      execDigestMd2 cap s =
        .next (respond .ok (.bytes (unspecifiedBytes .md2 s.draws2)) { s with draws2 := s.draws2 + 16 })) ∨
    (s.e2.phase ≠ .faulted ∧ cap < 16 ∧ execDigestMd2 cap s = .next (respond .insufficientBuffer .none s)) ∨
    (s.e2.phase = .faulted ∧ execDigestMd2 cap s = .next (respond .invalidState .none s)) := by
  rcases digestCheck_cases .md2 cap s with ⟨h, hp, hc⟩ | ⟨h, hp, hc⟩ | ⟨h, hc⟩
  · by_cases hf : s.e2.phase = .finalized
    · exact .inl ⟨hf, hp, by simp [execDigestMd2, hc, hf]⟩
    · have ha : s.e2.phase = .absorbing := by
        rw [phaseOf_md2] at h
        cases hq : s.e2.phase <;> simp_all
      exact .inr (.inl ⟨ha, hp, by simp [execDigestMd2, hc, hf, digestLength]⟩)
  · exact .inr (.inr (.inl ⟨h, hp, by simp [execDigestMd2, hc]⟩))
  · exact .inr (.inr (.inr ⟨h, by simp [execDigestMd2, hc]⟩))

theorem execResetMd2_eq (s : State) :
    execResetMd2 s = .next (respond .ok .none { s with e2 := Md2Engine.reset }) := by
  rw [execResetMd2, Md2Engine.clear_eq_reset]

theorem execBlocksizeMd2_eq (s : State) : execBlocksizeMd2 s = .next (respond .ok (.number 16) s) := rfl

theorem execDigestbitsMd2_eq (s : State) : execDigestbitsMd2 s = .next (respond .ok (.number 128) s) := rfl

/-! ### The commands of `E4` -/

theorem execFeedMd4_cases (p : List Byte) (s : State) :
    (s.e4.phase = .absorbing ∧ s.e4.pendingLength < 64 ∧
      execFeedMd4 p s = .next (respond .ok .none { s with e4 := s.e4.absorbAll p })) ∨
    (s.e4.phase = .absorbing ∧ 64 ≤ s.e4.pendingLength ∧
      execFeedMd4 p s = .next (respond .invalidState .none (setPhase .md4 .faulted s))) ∨
    (s.e4.phase = .finalized ∧ execFeedMd4 p s = .next (respond .finalized .none s)) ∨
    (s.e4.phase = .faulted ∧ execFeedMd4 p s = .next (respond .invalidState .none s)) := by
  rcases absorbCheck_cases .md4 s with ⟨h, hp, hc⟩ | ⟨h, hp, hc⟩ | ⟨h, hc⟩ | ⟨h, hc⟩
  · exact .inl ⟨h, hp, by simp [execFeedMd4, hc]⟩
  · exact .inr (.inl ⟨h, hp, by simp [execFeedMd4, hc]⟩)
  · exact .inr (.inr (.inl ⟨h, by simp [execFeedMd4, hc]⟩))
  · exact .inr (.inr (.inr ⟨h, by simp [execFeedMd4, hc]⟩))

theorem execFinalizeMd4_cases (s : State) :
    (s.e4.phase = .absorbing ∧ s.e4.pendingLength < 64 ∧
      execFinalizeMd4 s = .next (respond .ok .none { s with e4 := s.e4.finalize })) ∨
    (s.e4.phase = .absorbing ∧ 64 ≤ s.e4.pendingLength ∧
      execFinalizeMd4 s = .next (respond .invalidState .none (setPhase .md4 .faulted s))) ∨
    (s.e4.phase = .finalized ∧ execFinalizeMd4 s = .next (respond .finalized .none s)) ∨
    (s.e4.phase = .faulted ∧ execFinalizeMd4 s = .next (respond .invalidState .none s)) := by
  rcases absorbCheck_cases .md4 s with ⟨h, hp, hc⟩ | ⟨h, hp, hc⟩ | ⟨h, hc⟩ | ⟨h, hc⟩
  · exact .inl ⟨h, hp, by simp [execFinalizeMd4, hc]⟩
  · exact .inr (.inl ⟨h, hp, by simp [execFinalizeMd4, hc]⟩)
  · exact .inr (.inr (.inl ⟨h, by simp [execFinalizeMd4, hc]⟩))
  · exact .inr (.inr (.inr ⟨h, by simp [execFinalizeMd4, hc]⟩))

theorem execDigestMd4_cases (cap : Nat) (s : State) :
    (s.e4.phase = .finalized ∧ 16 ≤ cap ∧
      execDigestMd4 cap s = .next (respond .ok (.bytes s.e4.digestBytes) s)) ∨
    (s.e4.phase = .absorbing ∧ 16 ≤ cap ∧
      execDigestMd4 cap s =
        .next (respond .ok (.bytes (unspecifiedBytes .md4 s.draws4)) { s with draws4 := s.draws4 + 16 })) ∨
    (s.e4.phase ≠ .faulted ∧ cap < 16 ∧ execDigestMd4 cap s = .next (respond .insufficientBuffer .none s)) ∨
    (s.e4.phase = .faulted ∧ execDigestMd4 cap s = .next (respond .invalidState .none s)) := by
  rcases digestCheck_cases .md4 cap s with ⟨h, hp, hc⟩ | ⟨h, hp, hc⟩ | ⟨h, hc⟩
  · by_cases hf : s.e4.phase = .finalized
    · exact .inl ⟨hf, hp, by simp [execDigestMd4, hc, hf]⟩
    · have ha : s.e4.phase = .absorbing := by
        rw [phaseOf_md4] at h
        cases hq : s.e4.phase <;> simp_all
      exact .inr (.inl ⟨ha, hp, by simp [execDigestMd4, hc, hf, digestLength]⟩)
  · exact .inr (.inr (.inl ⟨h, hp, by simp [execDigestMd4, hc]⟩))
  · exact .inr (.inr (.inr ⟨h, by simp [execDigestMd4, hc]⟩))

theorem execResetMd4_eq (s : State) :
    execResetMd4 s = .next (respond .ok .none { s with e4 := Md4Engine.reset }) := by
  rw [execResetMd4, Md4Engine.clear_eq_reset]

theorem execBlocksizeMd4_eq (s : State) : execBlocksizeMd4 s = .next (respond .ok (.number 64) s) := rfl

theorem execDigestbitsMd4_eq (s : State) : execDigestbitsMd4 s = .next (respond .ok (.number 128) s) := rfl

/-! ### The arms of `exec` -/

@[simp] theorem exec_resetMd2 (s : State) : exec .resetMd2 s = execResetMd2 s := rfl
@[simp] theorem exec_feedMd2 (p : List Byte) (s : State) : exec (.feedMd2 p) s = execFeedMd2 p s := rfl
@[simp] theorem exec_finalizeMd2 (s : State) : exec .finalizeMd2 s = execFinalizeMd2 s := rfl
@[simp] theorem exec_digestMd2 (cap : Nat) (s : State) : exec (.digestMd2 cap) s = execDigestMd2 cap s := rfl
@[simp] theorem exec_blocksizeMd2 (s : State) : exec .blocksizeMd2 s = execBlocksizeMd2 s := rfl
@[simp] theorem exec_digestbitsMd2 (s : State) : exec .digestbitsMd2 s = execDigestbitsMd2 s := rfl
@[simp] theorem exec_resetMd4 (s : State) : exec .resetMd4 s = execResetMd4 s := rfl
@[simp] theorem exec_feedMd4 (p : List Byte) (s : State) : exec (.feedMd4 p) s = execFeedMd4 p s := rfl
@[simp] theorem exec_finalizeMd4 (s : State) : exec .finalizeMd4 s = execFinalizeMd4 s := rfl
@[simp] theorem exec_digestMd4 (cap : Nat) (s : State) : exec (.digestMd4 cap) s = execDigestMd4 cap s := rfl
@[simp] theorem exec_blocksizeMd4 (s : State) : exec .blocksizeMd4 s = execBlocksizeMd4 s := rfl
@[simp] theorem exec_digestbitsMd4 (s : State) : exec .digestbitsMd4 s = execDigestbitsMd4 s := rfl

/-! ### Runs of commands -/

@[simp] theorem runCommands_nil (s : State) : runCommands [] s = .next s := rfl

theorem runCommands_cons {i : Instr} {is : List Instr} {s t : State} (h : exec i s = .next t) :
    runCommands (i :: is) s = runCommands is t := by
  simp only [runCommands, h]

theorem runCommands_append {is js : List Instr} {s t : State} (h : runCommands is s = .next t) :
    runCommands (is ++ js) s = runCommands js t := by
  induction is generalizing s with
  | nil => cases h; rfl
  | cons i is ih =>
    rw [runCommands] at h
    cases hi : exec i s with
    | next u => rw [hi] at h; rw [List.cons_append, runCommands_cons hi]; exact ih h
    | fault r => rw [hi] at h; cases h
    | refused r => rw [hi] at h; cases h

/-! ### A step -/

/-- Everything a step can do (40_interface.md R60, R61 line 1; log 2, log 3): nothing to take, a payload not yet
whole, an illegal word, or a command. -/
theorem step_cases (s : State) :
    (s.commandWords = [] ∧ step s = .next s) ∨
    (∃ w ws, s.commandWords = w :: ws ∧
      ((decode w s.payloadStream = .error .payloadIncomplete ∧ step s = .next s) ∨
       (∃ r, r ≠ .payloadIncomplete ∧ decode w s.payloadStream = .error r ∧
          step s = .next (respond .illegalCommand .none { s with commandWords := ws })) ∨
       (∃ i rest, decode w s.payloadStream = .ok (i, rest) ∧
          step s = exec i { s with commandWords := ws, payloadStream := rest }))) := by
  cases hw : s.commandWords with
  | nil => exact .inl ⟨rfl, by simp [step, fetch, hw]⟩
  | cons w ws =>
    refine .inr ⟨w, ws, rfl, ?_⟩
    cases hd : decode w s.payloadStream with
    | ok r => exact .inr (.inr ⟨r.1, r.2, rfl, by simp [step, fetch, hw, hd]⟩)
    | error r =>
      cases r with
      | payloadIncomplete => exact .inl ⟨rfl, by simp [step, fetch, hw, hd]⟩
      | reservedOp => exact .inr (.inl ⟨_, by simp, rfl, by simp [step, fetch, hw, hd]⟩)
      | reservedAlg => exact .inr (.inl ⟨_, by simp, rfl, by simp [step, fetch, hw, hd]⟩)
      | reservedBits => exact .inr (.inl ⟨_, by simp, rfl, by simp [step, fetch, hw, hd]⟩)
      | nonzeroLen => exact .inr (.inl ⟨_, by simp, rfl, by simp [step, fetch, hw, hd]⟩)

/-! ### Several steps -/

/-- One step of a run, on any machine behind the host's interface. -/
theorem run_succ_of_next (M : Host.Core) (n : Nat) {s t : M.State} (h : M.step s = .next t) :
    M.run (n + 1) s = M.run n t := by
  rw [Host.Core.run, h]

theorem core_run_zero (s : State) : Sys2Proof.core.run 0 s = .next s := rfl

theorem core_run_succ {s t : State} (n : Nat) (h : step s = .next t) :
    Sys2Proof.core.run (n + 1) s = Sys2Proof.core.run n t :=
  run_succ_of_next Sys2Proof.core n h

end Sys2Proof.Machine
end

