-- ==== Sys2Proof/Tests/Slice0.lean ====
section
/-! SUPPORT. The model's own tests. Expected values are spec/95_test_vectors.md's (the section stands at each test) or
are written out from the encodings of 30_encoding.md; then one witness for each obligation with hypotheses. -/

namespace Sys2Proof.Tests

open Sys2Proof.Machine

/-! ### Helpers -/

/-- The bytes of a number, most significant first, as the vectors are written. -/
def bytes (n v : Nat) : List Byte := (List.range n).map fun i => BitVec.ofNat 8 (v / 256 ^ (n - 1 - i))

/-- A storage space that begins with the given bytes and is zero after them. -/
def space (n : Nat) (l : List Byte) : Vector Byte n := Vector.ofFn fun i => l.getD i.val 0

/-- The state of a next outcome, the reset state for any other. -/
def after : Host.Outcome State Fault Refusal → State
  | .next s => s
  | .fault _ => State.reset
  | .refused _ => State.reset

/-- Reset, but for the phase and the pending length of `E2`. -/
def inE2 (p : Phase) (pl : Nat) : State :=
  { State.reset with e2 := { Md2Engine.reset with phase := p, pendingLength := pl } }

/-- Reset, but for the phase and the pending length of `E4`, and the bit count that goes with it. -/
def inE4 (p : Phase) (pl : Nat) : State :=
  { State.reset with
    e4 := { Md4Engine.reset with phase := p, pendingLength := pl, totalBitLength := BitVec.ofNat 64 (8 * pl) } }

/-- Reset, with the given words and payload bytes on the command port. -/
def onPort (ws : List Word) (ps : List Byte) : State :=
  { State.reset with commandWords := ws, payloadStream := ps }

/-! ### Well-formedness: an ill-formed term for each check -/

theorem test_feedMd2_too_long : (Instr.feedMd2 (List.replicate 65536 0)).wellFormed = false := by
  rw [Instr.wellFormed, List.length_replicate]; decide
theorem test_feedMd4_too_long : (Instr.feedMd4 (List.replicate 65536 0)).wellFormed = false := by
  rw [Instr.wellFormed, List.length_replicate]; decide
theorem test_digestMd2_too_large : (Instr.digestMd2 65536).wellFormed = false := by decide
theorem test_digestMd4_too_large : (Instr.digestMd4 65536).wellFormed = false := by decide
theorem test_longest_is_wellFormed :
    (Instr.digestMd2 65535).wellFormed = true ∧ (Instr.digestMd4 65535).wellFormed = true ∧
    (Instr.feedMd2 []).wellFormed = true ∧ Instr.resetMd2.wellFormed = true := by decide

/-! ### Decoding: the words of R57, bit by bit (op 31:28, alg 27:24, rsv 23:16, len 15:0) -/

theorem test_decode_resetMd2 : decode 0b0000_0000_00000000_0000000000000000#32 [5] = .ok (.resetMd2, [5]) := by decide
theorem test_decode_feedMd2 : decode 0b0001_0000_00000000_0000000000000011#32 [97, 98, 99, 5] =
    .ok (.feedMd2 [97, 98, 99], [5]) := by decide
theorem test_decode_finalizeMd2 : decode 0b0010_0000_00000000_0000000000000000#32 [] = .ok (.finalizeMd2, []) := by
  decide
theorem test_decode_digestMd2 : decode 0b0011_0000_00000000_0000000000010000#32 [] = .ok (.digestMd2 16, []) := by decide
theorem test_decode_blocksizeMd2 : decode 0b0100_0000_00000000_0000000000000000#32 [] = .ok (.blocksizeMd2, []) := by
  decide
theorem test_decode_digestbitsMd2 : decode 0b0101_0000_00000000_0000000000000000#32 [] = .ok (.digestbitsMd2, []) := by
  decide
theorem test_decode_resetMd4 : decode 0b0000_0001_00000000_0000000000000000#32 [5] = .ok (.resetMd4, [5]) := by decide
theorem test_decode_feedMd4 : decode 0b0001_0001_00000000_0000000000000000#32 [97] = .ok (.feedMd4 [], [97]) := by decide
theorem test_decode_finalizeMd4 : decode 0b0010_0001_00000000_0000000000000000#32 [] = .ok (.finalizeMd4, []) := by
  decide
theorem test_decode_digestMd4 : decode 0b0011_0001_00000000_1111111111111111#32 [] = .ok (.digestMd4 65535, []) := by
  decide
theorem test_decode_blocksizeMd4 : decode 0b0100_0001_00000000_0000000000000000#32 [] = .ok (.blocksizeMd4, []) := by
  decide
theorem test_decode_digestbitsMd4 : decode 0b0101_0001_00000000_0000000000000000#32 [] = .ok (.digestbitsMd4, []) := by
  decide

/-- The four kinds of illegal word, in the order R50 tests for them, and a `FEED` whose payload is not whole. -/
theorem test_decode_rejects :
    decode 0b1111_0010_00000001_0000000000000001#32 [] = .error .reservedOp ∧
    decode 0b0000_0010_00000001_0000000000000001#32 [] = .error .reservedAlg ∧
    decode 0b0001_0000_10000000_0000000000000001#32 [1] = .error .reservedBits ∧
    decode 0b0101_0001_00000000_1000000000000000#32 [] = .error .nonzeroLen ∧
    decode 0b0001_0000_00000000_0000000000000010#32 [1] = .error .payloadIncomplete := by decide

/-- `FEED.MD4` of two bytes as the opcode table numbers bits: the payload follows the word. -/
theorem test_decodeTableWord :
    decodeTableWord 48 0x6261_11000002 = some (.feedMd4 [0x61, 0x62]) ∧
    decodeTableWord 32 0x11000002 = some (.feedMd4 [0, 0]) ∧ decodeTableWord 32 0x60000000 = none := by decide

/-! ### Micro-operations of the MD2 engine (95_test_vectors.md section 2.1) -/

theorem test_sBox : sBox 0x42 = 0x79 ∧ sBox 0x72 = 0x38 ∧ sBox 0x7f = 0xf1 ∧ sBox 0x80 = 0x45 ∧ sBox 0xfe = 0x83 := by
  decide

/-- Row 4: the carry through `C[15]`. -/
theorem test_checksum2 :
    (checksum2 (space 16 (bytes 16 0xbe02be2d93af46b8459c11d253498aeb)) (Vector.replicate 16 0x10)).toList =
      bytes 16 0x8d42e399c84674f0b7a695a33d5ed52a := by decide +kernel

/-- Row 5: all three regions of `X`, from `X0` and `PB` of bytes `ff`. -/
theorem test_compress2 :
    (compress2 (Vector.replicate 48 0xff) (Vector.replicate 16 0xff)).toList =
      bytes 48 0xbab59bda2127b446a5ef896bc7df2dff73afd67f724954d685c4de05b1b3a5574959ebe4dfe1d5d08cceb82824f95421 := by
  decide +kernel

/-! ### Commands of the MD2 engine (sections 2.2, 6) -/

theorem test_resetMd2 : (after (exec .resetMd2 (inE2 .faulted 16))).e2 = Md2Engine.reset := by decide +kernel

theorem test_feedMd2 :
    let e := (after (exec (.feedMd2 [0x61, 0x62, 0x63]) (inE2 .absorbing 0))).e2
    e.pendingBlock = space 16 [0x61, 0x62, 0x63] ∧ e.pendingLength = 3 := by decide

/-- V2.5: sixteen bytes are a block; the stale bytes stay in `PB`. -/
theorem test_feedMd2_block :
    let e := (after (exec (.feedMd2 (bytes 16 0x30313233343536373839616263646566)) (inE2 .absorbing 0))).e2
    e.checksum.toList = bytes 16 0xbe02be2d93af46b8459c11d253498aeb ∧
    e.transformBuffer.toList.take 16 = bytes 16 0x31b61effb6f0383440c132ddccbf62f9 ∧
    e.pendingBlock.toList = bytes 16 0x30313233343536373839616263646566 ∧ e.pendingLength = 0 := by decide +kernel

/-- V2.1: the empty message. -/
theorem test_finalizeMd2 :
    let e := (after (exec .finalizeMd2 (inE2 .absorbing 0))).e2
    e.digestBytes = bytes 16 0x8350e5a3e24c153df2275c9f80692773 ∧
    e.pendingBlock.toList = bytes 16 0x623867b6af52795e5f214e9720beea8d ∧ e.phase = .finalized := by decide +kernel

theorem test_digestMd2_small_buffer :
    (after (exec (.digestMd2 15) (inE2 .finalized 0))).responses = [⟨.insufficientBuffer, .none⟩] := by decide

/-- Before `FINALIZE` the bytes are free, but there are sixteen of them. -/
theorem test_digestMd2_unspecified :
    let t := after (exec (.digestMd2 16) (inE2 .absorbing 3))
    t.responses.map (·.status) = [.ok] ∧ t.e2 = (inE2 .absorbing 3).e2 ∧ t.draws2 = 16 := by decide

theorem test_blocksizeMd2 : (after (exec .blocksizeMd2 (inE2 .faulted 0))).responses = [⟨.ok, .number 16⟩] := by decide
theorem test_digestbitsMd2 : (after (exec .digestbitsMd2 (inE2 .finalized 0))).responses = [⟨.ok, .number 128⟩] := by
  decide

/-! ### Micro-operations of the MD4 engine (sections 4.1, 4.2) -/

/-- Row 4 of the table is the truth table. -/
theorem test_round_functions :
    md4F 0xf0f0f0f0 0xcccccccc 0xaaaaaaaa = 0xcacacaca ∧ md4G 0xf0f0f0f0 0xcccccccc 0xaaaaaaaa = 0xe8e8e8e8 ∧
    md4H 0xf0f0f0f0 0xcccccccc 0xaaaaaaaa = 0x96969696 := by decide

theorem test_rol32 :
    rol32 0x80000001 3 = 0x0000000c ∧ rol32 0x12345678 19 = 0xb3c091a2 ∧ rol32 0xdeadbeef 11 = 0x6df77ef5 := by decide

theorem test_loadWord : loadWord (space 64 [0x61, 0x62, 0x63, 0x80]) 0 = 0x80636261 := by decide

theorem test_lengthBytes : lengthBytes 0x0000000123456789 = [0x89, 0x67, 0x45, 0x23, 0x01, 0, 0, 0] := by decide

theorem test_wordsBytes :
    wordsBytes #v[0xe0cfd631, 0x31e96ad1, 0xd7593cb7, 0xc089c0e0] = bytes 16 0x31d6cfe0d16ae931b73c59d7e0c089c0 := by
  decide

/-! ### Commands of the MD4 engine (sections 4.3, 4.5) -/

theorem test_resetMd4 : (after (exec .resetMd4 (inE4 .faulted 64))).e4 = Md4Engine.reset := by decide +kernel

/-- V4.2. -/
theorem test_feedMd4 :
    let e := (after (exec (.feedMd4 [0x61]) (inE4 .absorbing 0))).e4
    e.pendingBlock = space 64 [0x61] ∧ e.pendingLength = 1 ∧ e.totalBitLength = 8 ∧ e.words = md4InitialWords := by
  decide +kernel

/-- V4.8. -/
theorem test_feedMd4_block :
    let e := (after (exec (.feedMd4 (List.replicate 64 0)) (inE4 .absorbing 0))).e4
    e.words = #v[0x015155ef, 0x2e5f67ab, 0x3681c98d, 0x7447ab15] ∧ e.pendingLength = 0 ∧ e.totalBitLength = 0x200 := by
  decide +kernel

/-- V4.1: the empty message. -/
theorem test_finalizeMd4 :
    let e := (after (exec .finalizeMd4 (inE4 .absorbing 0))).e4
    e.words = #v[0xe0cfd631, 0x31e96ad1, 0xd7593cb7, 0xc089c0e0] ∧ e.pendingBlock = space 64 [0x80] ∧
    e.phase = .finalized := by decide +kernel

/-- Section 4.5, `n = 56`: two final blocks. -/
theorem test_finalizeMd4_two_blocks :
    let m := (List.range 56).map fun i => BitVec.ofNat 8 (7 * i + 1)
    let e := (after (exec .finalizeMd4 (after (exec (.feedMd4 m) State.reset)))).e4
    e.words = #v[0xcc765246, 0x5e1992d1, 0x8494c278, 0x1e0bb624] ∧
    e.pendingBlock.toList = List.replicate 56 0 ++ [0xc0, 0x01, 0, 0, 0, 0, 0, 0] ∧ e.totalBitLength = 0x1c0 := by
  decide +kernel

/-- After reset and `FINALIZED`: the words are read out little-endian. -/
theorem test_digestMd4 :
    (after (exec (.digestMd4 16) (inE4 .finalized 0))).responses =
      [⟨.ok, .bytes (bytes 16 0x0123456789abcdeffedcba9876543210)⟩] := by decide

theorem test_digestMd4_faulted :
    (after (exec (.digestMd4 15) (inE4 .faulted 0))).responses = [⟨.invalidState, .none⟩] := by decide

theorem test_blocksizeMd4 : (after (exec .blocksizeMd4 (inE4 .faulted 0))).responses = [⟨.ok, .number 64⟩] := by decide
theorem test_digestbitsMd4 : (after (exec .digestbitsMd4 (inE4 .finalized 0))).responses = [⟨.ok, .number 128⟩] := by
  decide

/-! ### Steps (sections 6.4, 6.5; 30_encoding.md R55, R56) -/

/-- `0x60000000` is answered `IllegalCommand` and takes no payload. -/
theorem test_step_illegal :
    let t := after (step (onPort [0x60000000] [1]))
    t.responses = [⟨.illegalCommand, .none⟩] ∧ t.payloadStream = [1] ∧ t.commandWords = [] := by decide

/-- The unreachable state: `PL = 16` while absorbing. -/
theorem test_step_overfull :
    let t := after (step { inE2 .absorbing 16 with commandWords := [0x10000000] })
    t.responses = [⟨.invalidState, .none⟩] ∧ t.e2.phase = .faulted ∧ t.e2.pendingLength = 16 := by decide

theorem test_step_of_fetchWord :
    (after (step (State.reset.withFetchWord 40 0x61_10000001))).e2.pendingBlock = space 16 [0x61] := by decide

theorem test_parseLine :
    parseLine (['F', 'E', 'E', 'D', '.', 'M', 'D', '2', ' '] ++ quoteChar :: ['a', 'b', 'c'] ++ [quoteChar, ' ', ';', 'x'])
      = some [.feedMd2 [0x61, 0x62, 0x63]] := by decide +kernel

theorem test_parseLine_pseudo :
    parseLine ['H', 'A', 'S', 'H', '.', 'M', 'D', '4', ' ', '2', ' ', 'x', ' ', 'f', 'F'] =
      some [.resetMd4, .feedMd4 [0xff, 0xff], .finalizeMd4, .digestMd4 16] := by decide +kernel

theorem test_traceLine :
    traceLine (.digestMd4 16) ⟨.ok, .bytes [0x3f]⟩ =
      ['0', 'x', '3', '1', '0', '0', '0', '0', '1', '0', ' ', ' ', 'D', 'I', 'G', 'E', 'S', 'T', '.', 'M', 'D', '4', ' ',
        '1', '6', ' ', ' ', '-', '>', ' ', 'O', 'K', ' ', '3', 'f'] := by decide +kernel

/-! ### Witnesses: a state and operands that meet the hypotheses of each obligation -/

theorem witness_DecodeOfEncodeIsTheCommand :
    (Instr.feedMd4 [1, 2]).wellFormed = true ∧ (Instr.digestMd2 65535).wellFormed = true := by decide

theorem witness_EncodeOfDecodeIsTheWord : decode 0x11000001 [7, 8] = .ok (.feedMd4 [7], [8]) := by decide

/-- A row matched with the payload whole and not whole, and a word no row matches. -/
theorem witness_DecodeFollowsTheOpcodeMap :
    (⟨.feed, .md2, 0x10000000, 0xFFFF0000⟩ : OpcodeRow) ∈ opcodeRows ∧
    (0x1000FFFF : Word) &&& 0xFFFF0000 = 0x10000000 ∧ decode 0x10000001 [7] = .ok (.feedMd2 [7], []) ∧
    ∀ r ∈ opcodeRows, (0x00000001 : Word) &&& r.mask ≠ r.pattern := by decide

theorem witness_OpcodePatternsAreDisjoint :
    ∃ r ∈ opcodeRows, (0x3000FFFF : Word) &&& r.mask = r.pattern := by decide

theorem witness_StepRunsTheDecodedCommand :
    (onPort [0x10000001, 0x20000000] [7]).commandWords = [0x10000001, 0x20000000] ∧
    decode 0x10000001 (onPort [0x10000001, 0x20000000] [7]).payloadStream = .ok (.feedMd2 [7], []) := by decide

/-- One word of each kind, at the edge of its range. -/
theorem witness_IllegalWordsAnswerIllegalCommand :
    (onPort [0x60000000] []).commandWords = [0x60000000] ∧ 5 < opField 0x60000000 ∧ 1 < algField 0x12000000 ∧
    rsvField 0x10010000 ≠ 0 ∧ (opField 0x51000001 ∈ [0, 2, 4, 5] ∧ lenField 0x51000001 ≠ 0) := by decide

theorem witness_StepWithoutAWholeCommandChangesNothing :
    State.reset.commandWords = [] ∧ (onPort [0x11000002] [7]).commandWords = [0x11000002] ∧ opField 0x11000002 = 1 ∧
    algField 0x11000002 ≤ 1 ∧ rsvField 0x11000002 = 0 ∧
    (onPort [0x11000002] [7]).payloadStream.length < lenField 0x11000002 := by decide

theorem witness_IssuedCommandsRunInOrder :
    (∀ i ∈ [Instr.feedMd2 [1], .finalizeMd2, .digestMd2 16], i.wellFormed = true) ∧
    State.reset.commandWords = [] ∧ State.reset.payloadStream = [] := by decide

theorem witness_Absorb2TakesOneByte :
    (inE2 .absorbing 14).e2.pendingLength < 15 ∧ (inE2 .absorbing 15).e2.pendingLength = 15 ∧
    (inE2 .absorbing 15).e2.pendingLength ≤ 15 := by decide

theorem witness_FeedMd2InEveryPhase :
    (inE2 .faulted 0).e2.phase = .faulted ∧ (inE2 .finalized 0).e2.phase = .finalized ∧
    ((inE2 .absorbing 16).e2.phase = .absorbing ∧ 16 ≤ (inE2 .absorbing 16).e2.pendingLength) ∧
    ((inE2 .absorbing 15).e2.phase = .absorbing ∧ (inE2 .absorbing 15).e2.pendingLength < 16) := by decide

/-- A payload that stays within the block, one that fills it exactly, and none. -/
theorem witness_FeedMd2BufferEffect :
    (inE2 .absorbing 3).e2.phase = .absorbing ∧ (inE2 .absorbing 3).e2.pendingLength < 16 ∧
    (inE2 .absorbing 3).e2.pendingLength + (List.replicate 12 (7 : Byte)).length < 16 ∧
    ¬ (inE2 .absorbing 3).e2.pendingLength + (List.replicate 13 (7 : Byte)).length < 16 := by decide

theorem witness_FinalizeMd2InEveryPhase :
    (inE2 .faulted 0).e2.phase = .faulted ∧ (inE2 .finalized 0).e2.phase = .finalized ∧
    ((inE2 .absorbing 16).e2.phase = .absorbing ∧ 16 ≤ (inE2 .absorbing 16).e2.pendingLength) ∧
    ((inE2 .absorbing 0).e2.phase = .absorbing ∧ (inE2 .absorbing 0).e2.pendingLength < 16) := by decide

/-- The capacities 15 and 16 in the phases that tell them apart. -/
theorem witness_DigestMd2InEveryPhase :
    (inE2 .faulted 0).e2.phase = .faulted ∧ ((inE2 .absorbing 0).e2.phase ≠ .faulted ∧ 15 < 16) ∧
    ((inE2 .finalized 0).e2.phase = .finalized ∧ 16 ≤ 16) ∧ ((inE2 .absorbing 0).e2.phase = .absorbing ∧ 16 ≤ 16) := by
  decide

/-- The last step of each round and the first of the next: the word replaced, and one of the others. -/
theorem witness_Step4ReplacesOneWord :
    15 < 48 ∧ (1 = (4 - 15 % 16 % 4) % 4) ∧ 16 < 48 ∧ (0 = (4 - 16 % 16 % 4) % 4) ∧ 47 < 48 ∧
    (1 = (4 - 47 % 16 % 4) % 4) ∧ 3 < 4 ∧ 3 ≠ 1 := by decide

theorem witness_Absorb4AndPadAbsorb4TakeOneByte :
    (inE4 .absorbing 62).e4.pendingLength < 63 ∧ (inE4 .absorbing 63).e4.pendingLength = 63 ∧
    (inE4 .absorbing 63).e4.pendingLength ≤ 63 := by decide

theorem witness_FeedMd4InEveryPhase :
    (inE4 .faulted 0).e4.phase = .faulted ∧ (inE4 .finalized 0).e4.phase = .finalized ∧
    ((inE4 .absorbing 64).e4.phase = .absorbing ∧ 64 ≤ (inE4 .absorbing 64).e4.pendingLength) ∧
    ((inE4 .absorbing 63).e4.phase = .absorbing ∧ (inE4 .absorbing 63).e4.pendingLength < 64) := by decide

theorem witness_FeedMd4BufferEffect :
    (inE4 .absorbing 3).e4.phase = .absorbing ∧ (inE4 .absorbing 3).e4.pendingLength < 64 ∧
    (inE4 .absorbing 3).e4.pendingLength + (List.replicate 60 (7 : Byte)).length < 64 ∧
    ¬ (inE4 .absorbing 3).e4.pendingLength + (List.replicate 61 (7 : Byte)).length < 64 := by decide

/-- The pending lengths 55, 56 and 63, on either side of the second block. -/
theorem witness_FinalizeMd4InEveryPhase :
    (inE4 .faulted 0).e4.phase = .faulted ∧ (inE4 .finalized 0).e4.phase = .finalized ∧
    ((inE4 .absorbing 64).e4.phase = .absorbing ∧ 64 ≤ (inE4 .absorbing 64).e4.pendingLength) ∧
    ((inE4 .absorbing 55).e4.phase = .absorbing ∧ (inE4 .absorbing 55).e4.pendingLength ≤ 55) ∧
    ((inE4 .absorbing 56).e4.phase = .absorbing ∧ 56 ≤ (inE4 .absorbing 56).e4.pendingLength) ∧
    ((inE4 .absorbing 63).e4.phase = .absorbing ∧ 56 ≤ (inE4 .absorbing 63).e4.pendingLength ∧
      (inE4 .absorbing 63).e4.pendingLength < 64) := by decide

theorem witness_DigestMd4InEveryPhase :
    (inE4 .faulted 0).e4.phase = .faulted ∧ ((inE4 .absorbing 0).e4.phase ≠ .faulted ∧ 15 < 16) ∧
    ((inE4 .finalized 0).e4.phase = .finalized ∧ 16 ≤ 16) ∧ ((inE4 .absorbing 0).e4.phase = .absorbing ∧ 16 ≤ 16) := by
  decide

/-- A `DIGEST` with room in each phase that answers data. -/
theorem witness_CommandsFollowTheLifecycleTable :
    (Instr.digestMd4 16).op = .digest ∧ 16 ≤ (Instr.digestMd4 16).len ∧
    phaseOf (Instr.digestMd4 16).alg (inE4 .finalized 0) = .finalized ∧
    phaseOf (Instr.digestMd4 16).alg (inE4 .absorbing 1) = .absorbing := by decide

/-- An error that changes nothing, and the one that sets the phase. -/
theorem witness_ErrorsChangeNothingButTheFaultedPhase :
    ((after (exec (.digestMd2 0) State.reset)).responses.map (·.status)) = [.insufficientBuffer] ∧
    ((after (exec .finalizeMd4 (inE4 .absorbing 64))).responses.map (·.status)) = [.invalidState] ∧
    (after (exec .finalizeMd4 (inE4 .absorbing 64))).e4.phase = .faulted := by decide

theorem witness_FailedDigestIsRetryable :
    15 < 16 ∧ 16 ≤ 16 ∧ (inE2 .finalized 0).e2.phase ≠ .faulted ∧ (inE2 .finalized 0).e2.phase = .finalized ∧
    (inE4 .finalized 0).e4.phase ≠ .faulted ∧ (inE4 .finalized 0).e4.phase = .finalized := by decide

theorem witness_FaultedMd2IsStickyUntilReset :
    Instr.finalizeMd2 ∈ [Instr.finalizeMd2] ∧ (∃ p, Instr.feedMd2 [] = .feedMd2 p) ∧
    (inE2 .absorbing 16).e2.phase = .absorbing ∧ 16 ≤ (inE2 .absorbing 16).e2.pendingLength ∧
    (inE2 .faulted 16).e2 = { (inE2 .absorbing 16).e2 with phase := .faulted } :=
  ⟨by decide, ⟨[], rfl⟩, by decide, by decide, by decide⟩

theorem witness_FaultedMd4IsStickyUntilReset :
    Instr.finalizeMd4 ∈ [Instr.finalizeMd4] ∧ (∃ p, Instr.feedMd4 [] = .feedMd4 p) ∧
    (inE4 .absorbing 64).e4.phase = .absorbing ∧ 64 ≤ (inE4 .absorbing 64).e4.pendingLength ∧
    (inE4 .faulted 64).e4 = { (inE4 .absorbing 64).e4 with phase := .faulted } :=
  ⟨by decide, ⟨[], rfl⟩, by decide, by decide, by decide⟩

theorem witness_ChunkBoundariesDoNotMatter :
    ((inE2 .absorbing 15).e2.phase = .absorbing ∧ (inE2 .absorbing 15).e2.pendingLength < 16) ∧
    ((inE4 .absorbing 63).e4.phase = .absorbing ∧ (inE4 .absorbing 63).e4.pendingLength < 64) := by decide

/-- Two states that agree on one engine and differ in the other. -/
theorem witness_CommandsKeepToTheirEngine :
    (Instr.feedMd2 [1]).alg = .md2 ∧ (inE4 .absorbing 5).e2 = (inE4 .finalized 0).e2 ∧
    (inE4 .absorbing 5).draws2 = (inE4 .finalized 0).draws2 ∧ (Instr.feedMd4 [1]).alg = .md4 ∧
    (inE2 .absorbing 5).e4 = (inE2 .finalized 0).e4 ∧ (inE2 .absorbing 5).draws4 = (inE2 .finalized 0).draws4 := by
  decide

/-- A state with the invariants that is not the reset state, and a step from it. -/
theorem witness_StepKeepsTheInvariants :
    { inE4 .absorbing 63 with commandWords := [0x41000000] }.Inv ∧
    ∃ t, step { inE4 .absorbing 63 with commandWords := [0x41000000] } = .next t :=
  ⟨⟨by decide, by decide, by decide, by decide, by decide, by decide, by decide⟩, _, by rfl⟩

/-- A run of two steps from reset. -/
theorem witness_ReachableStatesKeepTheirBounds :
    ∃ t, Sys2Proof.core.run 2 { State.reset with commandWords := [0x10000001, 0x40000000], payloadStream := [7] } =
      .next t :=
  ⟨_, by rfl⟩

theorem witness_StepKeepsResponsesWellShaped :
    ([⟨.ok, .number 64⟩, ⟨.illegalCommand, .none⟩] : List Response).all Response.wellShaped = true ∧
    step { State.reset with responses := [⟨.ok, .number 64⟩, ⟨.illegalCommand, .none⟩] } =
      .next { State.reset with responses := [⟨.ok, .number 64⟩, ⟨.illegalCommand, .none⟩] } :=
  ⟨by decide, by rfl⟩

theorem witness_Md2DigestOfTheMessage : 16 ≤ 16 := by decide

theorem witness_Md4DigestOfTheMessage : 16 ≤ 16 := by decide

/-- Feeding with a failed `DIGEST` in it and commands to the other engine everywhere. -/
theorem witness_EveryComputationAnswersItsDigest :
    (∀ i ∈ [Instr.feedMd2 [1], .resetMd4, .digestMd2 3, .finalizeMd4, .feedMd2 []],
      i.alg = .md2 → i.op ≠ .reset ∧ i.op ≠ .finalize) ∧
    (∀ i ∈ [Instr.digestMd2 2, .feedMd4 [3], .blocksizeMd2],
      i.alg = .md2 → i.op = .digest ∨ i.op = .blocksize ∨ i.op = .digestbits) ∧ 16 ≤ 16 := by decide

theorem witness_ProperHostsGetOkThroughout :
    State.reset.Inv ∧
    hostProper State.reset.e2.phase State.reset.e4.phase
      [.feedMd2 [1], .feedMd4 [2, 3], .finalizeMd2, .blocksizeMd4, .digestMd2 16, .resetMd2, .finalizeMd4, .digestMd4 20,
        .feedMd2 []] = true :=
  ⟨⟨by decide, by decide, by decide, by decide, by decide, by decide, by decide⟩, by decide⟩

theorem witness_WrittenLinesAreReadBack :
    (Instr.feedMd2 [0x61, 0x62, 0x63]).wellFormed = true ∧
    parseLine (Instr.text (.feedMd2 [0x61, 0x62, 0x63])) = some [.feedMd2 [0x61, 0x62, 0x63]] := by decide +kernel

end Sys2Proof.Tests
end

section
/-! PROOFS. What a command to one engine leaves alone, and what it depends on (10_state.md R10). -/

namespace Sys2Proof.Machine

/-! ### The part of the state one engine's commands may read and write -/

/-- The engine of the given name with the counter of its free bytes (log 5). -/
def State.view (a : Algorithm) (s : State) : (Md2Engine × Nat) ⊕ (Md4Engine × Nat) :=
  match a with
  | .md2 => .inl (s.e2, s.draws2)
  | .md4 => .inr (s.e4, s.draws4)

theorem view_md2_eq_iff {s s' : State} : s.view .md2 = s'.view .md2 ↔ s.e2 = s'.e2 ∧ s.draws2 = s'.draws2 := by
  simp [State.view]

theorem view_md4_eq_iff {s s' : State} : s.view .md4 = s'.view .md4 ↔ s.e4 = s'.e4 ∧ s.draws4 = s'.draws4 := by
  simp [State.view]

@[simp] theorem respond_view (st : Status) (d : ResponseData) (a : Algorithm) (s : State) :
    (respond st d s).view a = s.view a := by
  cases a <;> rfl

theorem phaseOf_congr {a : Algorithm} {s s' : State} (h : s.view a = s'.view a) : phaseOf a s = phaseOf a s' := by
  cases a with
  | md2 => simp [(view_md2_eq_iff.mp h).1]
  | md4 => simp [(view_md4_eq_iff.mp h).1]

theorem pendingLengthOf_congr {a : Algorithm} {s s' : State} (h : s.view a = s'.view a) :
    pendingLengthOf a s = pendingLengthOf a s' := by
  cases a with
  | md2 => simp [(view_md2_eq_iff.mp h).1]
  | md4 => simp [(view_md4_eq_iff.mp h).1]

theorem absorbCheck_congr {a : Algorithm} {s s' : State} (h : s.view a = s'.view a) :
    absorbCheck a s = absorbCheck a s' := by
  simp only [absorbCheck, phaseOf_congr h, pendingLengthOf_congr h]

theorem digestCheck_congr {a : Algorithm} {cap : Nat} {s s' : State} (h : s.view a = s'.view a) :
    digestCheck a cap s = digestCheck a cap s' := by
  simp only [digestCheck, phaseOf_congr h]

/-! ### Updates that stay within one engine -/

/-- An update of the state that answers nothing, leaves the other engine alone, and whose effect on its own engine
depends on that engine alone. -/
structure LocalUpdate (a : Algorithm) (g : State → State) : Prop where
  responses : ∀ s, (g s).responses = s.responses
  frame : ∀ s b, b ≠ a → (g s).view b = s.view b
  congr : ∀ s s', s.view a = s'.view a → (g s).view a = (g s').view a

theorem localUpdate_id (a : Algorithm) : LocalUpdate a id :=
  ⟨fun _ => rfl, fun _ _ _ => rfl, fun _ _ h => h⟩

theorem localUpdate_md2 (g : Md2Engine → Md2Engine) (k : Nat → Nat) :
    LocalUpdate .md2 fun s => { s with e2 := g s.e2, draws2 := k s.draws2 } where
  responses _ := rfl
  frame _ b hb := by
    cases b with
    | md2 => exact absurd rfl hb
    | md4 => rfl
  congr s s' h := by
    obtain ⟨he, hd⟩ := view_md2_eq_iff.mp h
    exact view_md2_eq_iff.mpr ⟨congrArg g he, congrArg k hd⟩

theorem localUpdate_mapE2 (g : Md2Engine → Md2Engine) : LocalUpdate .md2 fun s => { s with e2 := g s.e2 } :=
  localUpdate_md2 g id

theorem localUpdate_mapDraws2 (k : Nat → Nat) : LocalUpdate .md2 fun s => { s with draws2 := k s.draws2 } :=
  localUpdate_md2 id k

theorem localUpdate_md4 (g : Md4Engine → Md4Engine) (k : Nat → Nat) :
    LocalUpdate .md4 fun s => { s with e4 := g s.e4, draws4 := k s.draws4 } where
  responses _ := rfl
  frame _ b hb := by
    cases b with
    | md2 => rfl
    | md4 => exact absurd rfl hb
  congr s s' h := by
    obtain ⟨he, hd⟩ := view_md4_eq_iff.mp h
    exact view_md4_eq_iff.mpr ⟨congrArg g he, congrArg k hd⟩

theorem localUpdate_mapE4 (g : Md4Engine → Md4Engine) : LocalUpdate .md4 fun s => { s with e4 := g s.e4 } :=
  localUpdate_md4 g id

theorem localUpdate_mapDraws4 (k : Nat → Nat) : LocalUpdate .md4 fun s => { s with draws4 := k s.draws4 } :=
  localUpdate_md4 id k

theorem localUpdate_setPhase (a : Algorithm) (p : Phase) : LocalUpdate a (setPhase a p) := by
  cases a with
  | md2 => exact localUpdate_mapE2 fun e => { e with phase := p }
  | md4 => exact localUpdate_mapE4 fun e => { e with phase := p }

/-- An error of `FEED` or `FINALIZE` changes no other engine than the one checked. -/
theorem localUpdate_of_absorbCheck {a : Algorithm} {s : State} {c : ErrorCause} (h : absorbCheck a s = some c) :
    LocalUpdate a c.effect := by
  rcases absorbCheck_cases a s with ⟨-, -, hc⟩ | ⟨-, -, hc⟩ | ⟨-, hc⟩ | ⟨-, hc⟩ <;> rw [hc] at h <;> cases h
  · exact localUpdate_setPhase a .faulted
  · exact localUpdate_id a
  · exact localUpdate_id a

/-- An error of `DIGEST` changes no engine. -/
theorem localUpdate_of_digestCheck {a : Algorithm} {cap : Nat} {s : State} {c : ErrorCause}
    (h : digestCheck a cap s = some c) : LocalUpdate a c.effect := by
  rcases digestCheck_cases a cap s with ⟨-, -, hc⟩ | ⟨-, -, hc⟩ | ⟨-, hc⟩ <;> rw [hc] at h <;> cases h
  · exact localUpdate_id a
  · exact localUpdate_id a

/-! ### Commands that stay within one engine -/

/-- A meaning that from every state makes one update within its engine and gives one response, and makes the same
update and gives the same response from every state that agrees on the engine. -/
def LocalCommand (a : Algorithm) (f : State → Host.Outcome State Fault Refusal) : Prop :=
  ∀ s : State, ∃ st d g, LocalUpdate a g ∧ ∀ s' : State, s.view a = s'.view a → f s' = .next (respond st d (g s'))

/-- A command without a check. -/
theorem localCommand_of_update {a : Algorithm} {f : State → Host.Outcome State Fault Refusal} {g : State → State}
    (st : Status) (d : ResponseData) (hg : LocalUpdate a g) (hf : ∀ s, f s = .next (respond st d (g s))) :
    LocalCommand a f :=
  fun _ => ⟨st, d, g, hg, fun s' _ => hf s'⟩

/-- A command with a check is local when the check reads its engine alone, every error it can raise is local, and it is
local from the states that pass. -/
theorem localCommand_of_check {a : Algorithm} {f : State → Host.Outcome State Fault Refusal}
    {check : State → Option ErrorCause} (hcongr : ∀ {s s' : State}, s.view a = s'.view a → check s = check s')
    (hlocal : ∀ {s c}, check s = some c → LocalUpdate a c.effect)
    (hraise : ∀ {s c}, check s = some c → f s = .next (raise c s))
    (hpass : ∀ s, check s = none → ∃ st d g, LocalUpdate a g ∧
      ∀ s', s.view a = s'.view a → check s' = none → f s' = .next (respond st d (g s'))) :
    LocalCommand a f := by
  intro s
  cases hc : check s with
  | some c =>
    exact ⟨c.status, .none, c.effect, hlocal hc, fun s' hv => hraise (hcongr hv ▸ hc)⟩
  | none =>
    obtain ⟨st, d, g, hg, hf⟩ := hpass s hc
    exact ⟨st, d, g, hg, fun s' hv => hf s' hv (hcongr hv ▸ hc)⟩

/-- `FEED` and `FINALIZE`: the check, then one update of the engine, answered `OK`. -/
theorem localCommand_of_absorbCheck {a : Algorithm} {f : State → Host.Outcome State Fault Refusal}
    {g : State → State} (hg : LocalUpdate a g) (hraise : ∀ {s c}, absorbCheck a s = some c → f s = .next (raise c s))
    (hpass : ∀ {s}, absorbCheck a s = none → f s = .next (respond .ok .none (g s))) : LocalCommand a f :=
  localCommand_of_check absorbCheck_congr localUpdate_of_absorbCheck hraise
    fun _ _ => ⟨.ok, .none, g, hg, fun _ _ hc => hpass hc⟩

theorem execFeedMd2_local (p : List Byte) : LocalCommand .md2 (execFeedMd2 p) :=
  localCommand_of_absorbCheck (localUpdate_mapE2 (·.absorbAll p)) (fun hc => by simp only [execFeedMd2, hc])
    fun hc => by simp only [execFeedMd2, hc]

theorem execFinalizeMd2_local : LocalCommand .md2 execFinalizeMd2 :=
  localCommand_of_absorbCheck (localUpdate_mapE2 Md2Engine.finalize) (fun hc => by simp only [execFinalizeMd2, hc])
    fun hc => by simp only [execFinalizeMd2, hc]

theorem execFeedMd4_local (p : List Byte) : LocalCommand .md4 (execFeedMd4 p) :=
  localCommand_of_absorbCheck (localUpdate_mapE4 (·.absorbAll p)) (fun hc => by simp only [execFeedMd4, hc])
    fun hc => by simp only [execFeedMd4, hc]

theorem execFinalizeMd4_local : LocalCommand .md4 execFinalizeMd4 :=
  localCommand_of_absorbCheck (localUpdate_mapE4 Md4Engine.finalize) (fun hc => by simp only [execFinalizeMd4, hc])
    fun hc => by simp only [execFinalizeMd4, hc]

theorem execDigestMd2_local (cap : Nat) : LocalCommand .md2 (execDigestMd2 cap) := by
  refine localCommand_of_check (check := digestCheck .md2 cap) digestCheck_congr localUpdate_of_digestCheck
    (fun hc => by simp only [execDigestMd2, hc]) fun s _ => ?_
  by_cases hf : s.e2.phase = .finalized
  · refine ⟨.ok, .bytes s.e2.digestBytes, id, localUpdate_id _, fun s' hv hc => ?_⟩
    obtain ⟨he, -⟩ := view_md2_eq_iff.mp hv
    simp [execDigestMd2, hc, ← he, hf]
  · refine ⟨.ok, .bytes (unspecifiedBytes .md2 s.draws2), _, localUpdate_mapDraws2 (· + digestLength),
      fun s' hv hc => ?_⟩
    obtain ⟨he, hd⟩ := view_md2_eq_iff.mp hv
    simp [execDigestMd2, hc, ← he, hf, hd]

theorem execDigestMd4_local (cap : Nat) : LocalCommand .md4 (execDigestMd4 cap) := by
  refine localCommand_of_check (check := digestCheck .md4 cap) digestCheck_congr localUpdate_of_digestCheck
    (fun hc => by simp only [execDigestMd4, hc]) fun s _ => ?_
  by_cases hf : s.e4.phase = .finalized
  · refine ⟨.ok, .bytes s.e4.digestBytes, id, localUpdate_id _, fun s' hv hc => ?_⟩
    obtain ⟨he, -⟩ := view_md4_eq_iff.mp hv
    simp [execDigestMd4, hc, ← he, hf]
  · refine ⟨.ok, .bytes (unspecifiedBytes .md4 s.draws4), _, localUpdate_mapDraws4 (· + digestLength),
      fun s' hv hc => ?_⟩
    obtain ⟨he, hd⟩ := view_md4_eq_iff.mp hv
    simp [execDigestMd4, hc, ← he, hf, hd]

/-- Every command stays within the engine it addresses. -/
theorem exec_local (i : Instr) : LocalCommand i.alg (exec i) := by
  cases i with
  | resetMd2 => exact localCommand_of_update _ _ (localUpdate_mapE2 Md2Engine.clear) fun _ => rfl
  | feedMd2 p => exact execFeedMd2_local p
  | finalizeMd2 => exact execFinalizeMd2_local
  | digestMd2 cap => exact execDigestMd2_local cap
  | blocksizeMd2 => exact localCommand_of_update _ _ (localUpdate_id _) execBlocksizeMd2_eq
  | digestbitsMd2 => exact localCommand_of_update _ _ (localUpdate_id _) execDigestbitsMd2_eq
  | resetMd4 => exact localCommand_of_update _ _ (localUpdate_mapE4 Md4Engine.clear) fun _ => rfl
  | feedMd4 p => exact execFeedMd4_local p
  | finalizeMd4 => exact execFinalizeMd4_local
  | digestMd4 cap => exact execDigestMd4_local cap
  | blocksizeMd4 => exact localCommand_of_update _ _ (localUpdate_id _) execBlocksizeMd4_eq
  | digestbitsMd4 => exact localCommand_of_update _ _ (localUpdate_id _) execDigestbitsMd4_eq

/-- A command run from two states: it completes from both, leaves the other engine alone, and where the states agree on
its engine it gives the same engine and the same response. -/
theorem exec_two_states (i : Instr) (s s' : State) : ∃ t t' r,
    exec i s = .next t ∧ exec i s' = .next t' ∧ (∀ b, b ≠ i.alg → t.view b = s.view b) ∧
    (s.view i.alg = s'.view i.alg →
      t.view i.alg = t'.view i.alg ∧ t.responses = s.responses ++ [r] ∧ t'.responses = s'.responses ++ [r]) := by
  obtain ⟨st, d, g, hg, hs⟩ := exec_local i s
  obtain ⟨st', d', g', -, hs'⟩ := exec_local i s'
  refine ⟨_, _, ⟨st, d⟩, hs s rfl, hs' s' rfl, fun b hb => by rw [respond_view, hg.frame s b hb], fun hv => ?_⟩
  have hsame : respond st' d' (g' s') = respond st d (g s') := by
    simpa [hs' s' rfl] using hs s' hv
  rw [hsame]
  simp [hg.congr s s' hv, hg.responses]

/-- A command leaves the engine it does not address alone (10_state.md R10). -/
theorem exec_view_of_ne {i : Instr} {s t : State} {b : Algorithm} (h : exec i s = .next t) (hb : b ≠ i.alg) :
    t.view b = s.view b := by
  obtain ⟨u, -, -, hu, -, hframe, -⟩ := exec_two_states i s s
  rw [hu] at h
  cases h
  exact hframe b hb

/-- Settles O42: a command's update and response depend on its own engine alone, and the update stays within it. -/
theorem commandsKeepToTheirEngine : Obligations.CommandsKeepToTheirEngine := by
  intro i s s'
  obtain ⟨t, t', r, ht, ht', hframe, hown⟩ := exec_two_states i s s'
  refine ⟨t, t', r, ht, ht', fun ha => ?_, fun ha => ?_⟩
  · rw [ha] at hframe hown
    obtain ⟨h4, hd4⟩ := view_md4_eq_iff.mp (hframe .md4 (by decide))
    refine ⟨h4, hd4, fun he hd => ?_⟩
    obtain ⟨hv, hr, hr'⟩ := hown (view_md2_eq_iff.mpr ⟨he, hd⟩)
    obtain ⟨he', hd'⟩ := view_md2_eq_iff.mp hv
    exact ⟨he', hd', hr, hr'⟩
  · rw [ha] at hframe hown
    obtain ⟨h2, hd2⟩ := view_md2_eq_iff.mp (hframe .md2 (by decide))
    refine ⟨h2, hd2, fun he hd => ?_⟩
    obtain ⟨hv, hr, hr'⟩ := hown (view_md4_eq_iff.mpr ⟨he, hd⟩)
    obtain ⟨he', hd'⟩ := view_md4_eq_iff.mp hv
    exact ⟨he', hd', hr, hr'⟩

end Sys2Proof.Machine
end

section
/-! PROOFS. The invariants of 10_state.md R27 and R19, engine by engine: every command keeps them, hence every step
and every run. -/

namespace Sys2Proof.Machine

/-! ### The invariants as a property of each engine -/

/-- The part of `State.Inv` about `E2`. -/
structure Md2Engine.Inv (e : Md2Engine) : Prop where
  pending : e.pendingLength ≤ 15
  finalized : e.phase = .finalized → e.pendingLength = 0
  unfaulted : e.phase ≠ .faulted

/-- The part of `State.Inv` about `E4`. -/
structure Md4Engine.Inv (e : Md4Engine) : Prop where
  pending : e.pendingLength ≤ 63
  finalized : e.phase = .finalized → e.pendingLength = 0
  unfaulted : e.phase ≠ .faulted
  bits : e.phase = .absorbing → e.totalBitLength.toNat % 512 = 8 * e.pendingLength

theorem State.inv_iff {s : State} : s.Inv ↔ s.e2.Inv ∧ s.e4.Inv :=
  ⟨fun ⟨p2, p4, f2, f4, u2, u4, b4⟩ => ⟨⟨p2, f2, u2⟩, ⟨p4, f4, u4, b4⟩⟩,
    fun ⟨⟨p2, f2, u2⟩, ⟨p4, f4, u4, b4⟩⟩ => ⟨p2, p4, f2, f4, u2, u4, b4⟩⟩

/-! ### What the commands make of an engine -/

theorem Md2Engine.inv_reset : Md2Engine.reset.Inv := ⟨by simp, by simp, by simp⟩

theorem Md4Engine.inv_reset : Md4Engine.reset.Inv := ⟨by simp, by simp, by simp, by simp⟩

theorem Md2Engine.Inv.absorbAll {e : Md2Engine} (h : e.Inv) (ha : e.phase = .absorbing) (p : List Byte) :
    (e.absorbAll p).Inv := by
  have hp := h.pending
  have hpl := e.absorbAll_pendingLength p (by omega)
  exact ⟨by omega, by simp [ha], by simp [ha]⟩

/-- Each byte counts eight bits, and a block is 512 of them, so the count keeps step with the pending length. -/
theorem Md4Engine.Inv.absorbAll {e : Md4Engine} (h : e.Inv) (ha : e.phase = .absorbing) (p : List Byte) :
    (e.absorbAll p).Inv := by
  have hp := h.pending
  have hb := h.bits ha
  have hpl := e.absorbAll_pendingLength p (by omega)
  refine ⟨by omega, by simp [ha], by simp [ha], fun _ => ?_⟩
  rw [Md4Engine.absorbAll_totalBitLength, BitVec.toNat_add, BitVec.toNat_ofNat]
  omega

theorem Md2Engine.inv_finalize (e : Md2Engine) : e.finalize.Inv := ⟨by simp, by simp, by simp⟩

theorem Md4Engine.Inv.finalize {e : Md4Engine} (h : e.Inv) : e.finalize.Inv := by
  have hp := h.pending
  have hpl := e.finalize_pendingLength (by omega)
  exact ⟨by omega, fun _ => hpl, by simp, by simp⟩

/-! ### Commands -/

/-- A command keeps the invariants of `E2`: under them no command can find `E2` overfull or `FAULTED`, and a command to
`E4` leaves it alone. -/
theorem exec_keeps_inv_e2 {i : Instr} {s t : State} (h : s.e2.Inv) (he : exec i s = .next t) : t.e2.Inv := by
  have hp := h.pending
  cases i with
  | resetMd2 =>
    rw [exec_resetMd2, execResetMd2_eq] at he
    cases he
    exact Md2Engine.inv_reset
  | feedMd2 p =>
    rw [exec_feedMd2] at he
    rcases execFeedMd2_cases p s with ⟨ha, -, hc⟩ | ⟨-, hl, -⟩ | ⟨-, hc⟩ | ⟨hf, -⟩
    · cases hc.symm.trans he
      exact h.absorbAll ha p
    · omega
    · cases hc.symm.trans he
      exact h
    · exact absurd hf h.unfaulted
  | finalizeMd2 =>
    rw [exec_finalizeMd2] at he
    rcases execFinalizeMd2_cases s with ⟨-, -, hc⟩ | ⟨-, hl, -⟩ | ⟨-, hc⟩ | ⟨hf, -⟩
    · cases hc.symm.trans he
      exact s.e2.inv_finalize
    · omega
    · cases hc.symm.trans he
      exact h
    · exact absurd hf h.unfaulted
  | digestMd2 cap =>
    rw [exec_digestMd2] at he
    rcases execDigestMd2_cases cap s with ⟨-, -, hc⟩ | ⟨-, -, hc⟩ | ⟨-, -, hc⟩ | ⟨-, hc⟩ <;>
      cases hc.symm.trans he <;> exact h
  | blocksizeMd2 => cases he; exact h
  | digestbitsMd2 => cases he; exact h
  | _ =>
    obtain ⟨hsame, -⟩ := view_md2_eq_iff.mp (exec_view_of_ne he (by rintro ⟨⟩))
    rwa [hsame]

/-- A command keeps the invariants of `E4`: under them no command can find `E4` overfull or `FAULTED`, and a command to
`E2` leaves it alone. -/
theorem exec_keeps_inv_e4 {i : Instr} {s t : State} (h : s.e4.Inv) (he : exec i s = .next t) : t.e4.Inv := by
  have hp := h.pending
  cases i with
  | resetMd4 =>
    rw [exec_resetMd4, execResetMd4_eq] at he
    cases he
    exact Md4Engine.inv_reset
  | feedMd4 p =>
    rw [exec_feedMd4] at he
    rcases execFeedMd4_cases p s with ⟨ha, -, hc⟩ | ⟨-, hl, -⟩ | ⟨-, hc⟩ | ⟨hf, -⟩
    · cases hc.symm.trans he
      exact h.absorbAll ha p
    · omega
    · cases hc.symm.trans he
      exact h
    · exact absurd hf h.unfaulted
  | finalizeMd4 =>
    rw [exec_finalizeMd4] at he
    rcases execFinalizeMd4_cases s with ⟨-, -, hc⟩ | ⟨-, hl, -⟩ | ⟨-, hc⟩ | ⟨hf, -⟩
    · cases hc.symm.trans he
      exact h.finalize
    · omega
    · cases hc.symm.trans he
      exact h
    · exact absurd hf h.unfaulted
  | digestMd4 cap =>
    rw [exec_digestMd4] at he
    rcases execDigestMd4_cases cap s with ⟨-, -, hc⟩ | ⟨-, -, hc⟩ | ⟨-, -, hc⟩ | ⟨-, hc⟩ <;>
      cases hc.symm.trans he <;> exact h
  | blocksizeMd4 => cases he; exact h
  | digestbitsMd4 => cases he; exact h
  | _ =>
    obtain ⟨hsame, -⟩ := view_md4_eq_iff.mp (exec_view_of_ne he (by rintro ⟨⟩))
    rwa [hsame]

theorem exec_keeps_inv {i : Instr} {s t : State} (h : s.Inv) (he : exec i s = .next t) : t.Inv := by
  obtain ⟨h2, h4⟩ := State.inv_iff.mp h
  exact State.inv_iff.mpr ⟨exec_keeps_inv_e2 h2 he, exec_keeps_inv_e4 h4 he⟩

/-! ### Steps and runs -/

/-- The invariants speak of the engines only. -/
theorem State.Inv.of_engines {s t : State} (h : s.Inv) (h2 : t.e2 = s.e2) (h4 : t.e4 = s.e4) : t.Inv := by
  rw [State.inv_iff, h2, h4]
  exact State.inv_iff.mp h

theorem step_keeps_inv {s t : State} (h : s.Inv) (hs : step s = .next t) : t.Inv := by
  rcases step_cases s with ⟨-, hc⟩ | ⟨w, ws, -, ⟨-, hc⟩ | ⟨r, -, -, hc⟩ | ⟨i, rest, -, hc⟩⟩
  · cases hc.symm.trans hs
    exact h
  · cases hc.symm.trans hs
    exact h
  · cases hc.symm.trans hs
    exact h.of_engines rfl rfl
  · have htaken : State.Inv { s with commandWords := ws, payloadStream := rest } := h.of_engines rfl rfl
    exact exec_keeps_inv htaken (hc.symm.trans hs)

/-- What every step keeps holds after every run, on any machine behind the host's interface. -/
theorem run_keeps (M : Host.Core) {P : M.State → Prop} (hstep : ∀ s t, P s → M.step s = .next t → P t) (n : Nat)
    {s t : M.State} (h : P s) (hr : M.run n s = .next t) : P t := by
  induction n generalizing s with
  | zero =>
    cases hr
    exact h
  | succ n ih =>
    rw [Host.Core.run] at hr
    cases hs : M.step s with
    | next u =>
      rw [hs] at hr
      exact ih (hstep s u h hs) hr
    | fault r =>
      rw [hs] at hr
      cases hr
    | refused r =>
      rw [hs] at hr
      cases hr

theorem reset_inv : State.reset.Inv := State.inv_iff.mpr ⟨Md2Engine.inv_reset, Md4Engine.inv_reset⟩

/-! ### The obligations -/

/-- Settles O44, engine by engine. -/
theorem resetSatisfiesTheInvariants : Obligations.ResetSatisfiesTheInvariants := reset_inv

/-- Settles O45: whatever a step finds on the port, it leaves the engines alone or executes one command. -/
theorem stepKeepsTheInvariants : Obligations.StepKeepsTheInvariants := fun _ _ => step_keeps_inv

/-- Settles O46: the invariants hold at reset whatever is on the port, and every step of the run keeps them. -/
theorem reachableStatesKeepTheirBounds : Obligations.ReachableStatesKeepTheirBounds := by
  intro ws stream n t hr
  have hstart : State.Inv { State.reset with commandWords := ws, payloadStream := stream } :=
    reset_inv.of_engines rfl rfl
  have h : t.Inv := run_keeps Sys2Proof.core (fun _ _ => step_keeps_inv) n hstart hr
  exact ⟨⟨h.pending2, h.pending4⟩, h.finalized2, h.finalized4, h.unfaulted2, h.unfaulted4⟩

end Sys2Proof.Machine
end

section
/-! PROOFS. The byte order of the length field and of the digest (20_memory.md R36, R37). -/

namespace Sys2Proof.Machine

/-- Byte `b` of a value is its digit of weight `2 ^ (8 * b)`, whatever the width. -/
theorem byteAt_toNat {w : Nat} (v : BitVec w) (b : Nat) : (byteAt v b).toNat = v.toNat / 2 ^ (8 * b) % 2 ^ 8 := by
  rw [byteAt, BitVec.extractLsb'_toNat, Nat.shiftRight_eq_div_pow]

theorem lengthBytes_getD (bits : DWord) {i : Nat} (hi : i < 8) : (lengthBytes bits).getD i 0 = byteAt bits i := by
  rw [List.getD_eq_getElem _ _ (by simpa using hi)]
  simp [lengthBytes]

theorem wordsBytes_getD (words : Vector Word 4) {i b : Nat} (hi : i < 4) (hb : b < 4) :
    (wordsBytes words).getD (4 * i + b) 0 = byteAt (arrayRead words i) b := by
  have hlt : 4 * i + b < (wordsBytes words).length := by
    rw [wordsBytes_length]
    omega
  have hword : (4 * i + b) / 4 = i := by omega
  have hbyte : (4 * i + b) % 4 = b := by omega
  rw [List.getD_eq_getElem _ _ hlt]
  simp [wordsBytes, hword, hbyte]

/-! ### The obligation -/

/-- Settles O30: each entry of the two lists is a `byteAt`, which is a digit in base `2 ^ 8`. -/
theorem lengthAndDigestAreLittleEndian : Obligations.LengthAndDigestAreLittleEndian := by
  refine ⟨fun bits => ⟨lengthBytes_length bits, fun i hi => ?_⟩,
    fun e => ⟨e.digestBytes_length, fun i hi b hb => ?_⟩⟩
  · rw [lengthBytes_getD bits hi, byteAt_toNat]
  · rw [Md4Engine.digestBytes, wordsBytes_getD e.words hi hb, byteAt_toNat]

end Sys2Proof.Machine
end

section
/-! PROOFS. The decoder and the encoder against each other and against the opcode map (30_encoding.md R46 to R52,
R57). -/

namespace Sys2Proof

/-! ### The parts of a command -/

/-- A command is well formed exactly when its number fits the `len` field. -/
theorem Instr.wellFormed_iff_len_le (i : Instr) : i.wellFormed = true ↔ i.len ≤ maxLen := by
  cases i <;> simp [Instr.wellFormed, Instr.len]

theorem Instr.len_eq_zero_of_takesNoLen (i : Instr) (h : i.op.takesNoLen = true) : i.len = 0 := by
  cases i with
  | feedMd2 p | feedMd4 p | digestMd2 cap | digestMd4 cap => cases h
  | _ => rfl

/-- A command is put together again from its operation, engine, number and payload. -/
theorem assemble_parts (i : Instr) (rest : List Byte) :
    assemble i.op i.alg i.len (i.payload ++ rest) = .ok (i, rest) := by
  cases i with
  | feedMd2 p | feedMd4 p =>
    simp only [Instr.op, Instr.alg, Instr.len, Instr.payload, assemble, takePayload_append]
    rfl
  | _ => rfl

/-- Only a `FEED` whose payload is not whole can keep a legal word from giving a command (20_memory.md R33). -/
theorem assemble_cases (op : Op) (a : Algorithm) (len : Nat) (stream : List Byte) :
    (op = .feed ∧ stream.length < len ∧ assemble op a len stream = .error .payloadIncomplete) ∨
    ∃ i rest, assemble op a len stream = .ok (i, rest) := by
  cases op with
  | feed =>
    rcases Nat.lt_or_ge stream.length len with h | h
    · have ht : takePayload len stream = .error .payloadIncomplete := if_neg (Nat.not_le.mpr h)
      exact .inl ⟨rfl, h, by cases a <;> simp only [assemble, ht] <;> rfl⟩
    · have ht : takePayload len stream = .ok (stream.take len, stream.drop len) := if_pos h
      exact .inr (by cases a <;> simp only [assemble, ht] <;> exact ⟨_, _, rfl⟩)
  | _ => exact .inr (by cases a <;> exact ⟨_, _, rfl⟩)

/-! ### Words and their fields -/

/-- A word with `rsv = 0` is the command word of its other fields. -/
theorem commandWord_of_fields {w : Word} {op : Op} {a : Algorithm} (ho : opField w = op.number)
    (ha : algField w = a.number) (hr : rsvField w = 0) : commandWord op a (lenField w) = w := by
  apply BitVec.eq_of_toNat_eq
  rw [commandWord_toNat op a _ (lenField_le w), word_of_fields w, ho, ha, hr]
  omega

/-- What a decoded command has to do with its word and the stream. -/
theorem decode_eq_ok {w : Word} {stream rest : List Byte} {i : Instr} (h : decode w stream = .ok (i, rest)) :
    opField w = i.op.number ∧ algField w = i.alg.number ∧ rsvField w = 0 ∧ i.len = lenField w ∧
      i.payload ++ rest = stream := by
  rcases decode_cases w stream with ⟨op, a, ho, ha, hr, hl, hd⟩ | ⟨-, hd⟩ | ⟨-, -, hd⟩ | ⟨-, -, -, hd⟩ |
    ⟨op, -, -, -, -, -, hd⟩ <;> rw [hd] at h
  · obtain ⟨rfl, rfl, hlen, hp⟩ := assemble_eq_ok h hl
    exact ⟨ho, ha, hr, hlen, hp⟩
  all_goals cases h

/-- A row of the opcode map is known by its operation and engine. -/
theorem opcodeRow_ext : ∀ r ∈ opcodeRows, ∀ r' ∈ opcodeRows, r.op = r'.op → r.alg = r'.alg → r = r' := by
  decide

/-! ### The obligations -/

/-- Settles O1: the encoder writes the fields the decoder tests, and the decoder assembles the command from its own
parts. -/
theorem decodeOfEncodeIsTheCommand : Obligations.DecodeOfEncodeIsTheCommand := by
  intro i rest hwf
  have hl := i.wellFormed_iff_len_le.mp hwf
  have hlen : lenField (encode i).1 = i.len := lenField_commandWord i.op i.alg i.len hl
  have hdec : decode (encode i).1 (i.payload ++ rest) =
      assemble i.op i.alg (lenField (encode i).1) (i.payload ++ rest) :=
    decode_of_fields (opField_commandWord i.op i.alg i.len hl) (algField_commandWord i.op i.alg i.len hl)
      (rsvField_commandWord i.op i.alg i.len hl) (fun h => hlen.trans (i.len_eq_zero_of_takesNoLen h)) _
  exact hdec.trans (hlen ▸ assemble_parts i rest)

/-- Settles O2: the fields of a decoded word are the parts of its command, and they make up the word. -/
theorem encodeOfDecodeIsTheWord : Obligations.EncodeOfDecodeIsTheWord := by
  intro w stream rest i h
  obtain ⟨ho, ha, hr, hlen, hp⟩ := decode_eq_ok h
  refine ⟨i.wellFormed_iff_len_le.mpr (hlen ▸ lenField_le w), ?_, hp⟩
  rw [encode, hlen]
  exact commandWord_of_fields ho ha hr

/-- Settles O3: a row's test says of the fields what the decoder tests (`OpcodeRow.covers_iff_fields`), and each
operation of each engine has a row. -/
theorem decodeFollowsTheOpcodeMap : Obligations.DecodeFollowsTheOpcodeMap := by
  intro w stream
  refine ⟨fun r hr hm => ?_, fun i rest h => ?_, fun hno => ?_⟩
  · obtain ⟨ho, ha, hrsv, hl⟩ := (OpcodeRow.covers_iff_fields w r hr).mp hm
    rw [decode_of_fields ho ha hrsv hl]
    refine (assemble_cases r.op r.alg (lenField w) stream).imp_right fun ⟨i, rest, h⟩ => ?_
    obtain ⟨hop, halg, hlen, -⟩ := assemble_eq_ok h hl
    exact ⟨i, rest, h, hop, halg, hlen⟩
  · obtain ⟨ho, ha, hrsv, hlen, -⟩ := decode_eq_ok h
    obtain ⟨r, hr, hop, halg⟩ := opcodeRow_exists i.op i.alg
    have hl : r.op.takesNoLen = true → lenField w = 0 := fun ht =>
      hlen.symm.trans (i.len_eq_zero_of_takesNoLen (hop ▸ ht))
    exact ⟨r, hr, (OpcodeRow.covers_iff_fields w r hr).mpr ⟨hop ▸ ho, halg ▸ ha, hrsv, hl⟩, hop, halg⟩
  · rcases decode_cases w stream with ⟨op, a, ho, ha, hrsv, hl, -⟩ | ⟨-, hd⟩ | ⟨-, -, hd⟩ | ⟨-, -, -, hd⟩ |
      ⟨op, -, -, -, -, -, hd⟩
    · obtain ⟨r, hr, rfl, rfl⟩ := opcodeRow_exists op a
      exact absurd ((OpcodeRow.covers_iff_fields w r hr).mpr ⟨ho, ha, hrsv, hl⟩) (hno r hr)
    all_goals exact ⟨_, by decide, hd⟩

/-- Settles O4: a matched word's fields are the operation and the engine of the row, and these name the row. -/
theorem opcodePatternsAreDisjoint : Obligations.OpcodePatternsAreDisjoint := by
  intro w r hr r' hr' hm hm'
  obtain ⟨ho, ha, -⟩ := (OpcodeRow.covers_iff_fields w r hr).mp hm
  obtain ⟨ho', ha', -⟩ := (OpcodeRow.covers_iff_fields w r' hr').mp hm'
  exact opcodeRow_ext r hr r' hr' (Op.number_inj.mp (ho.symm.trans ho')) (Algorithm.number_inj.mp (ha.symm.trans ha'))

/-- Settles O5: ten words evaluated field by field, the six commands first, then one word of each illegal kind. -/
theorem sampleWordsDecode : Obligations.SampleWordsDecode := by
  refine ⟨?_, ?_, ?_, ?_, ?_, ?_, ?_, ?_, ?_, ?_⟩ <;> decide

/-- Settles O6: the codes are read off their definitions. -/
theorem statusAndPhaseCodes : Obligations.StatusAndPhaseCodes :=
  ⟨rfl, rfl, rfl, rfl, rfl, rfl, rfl, rfl⟩

end Sys2Proof
end

section
/-! PROOFS. The shape of the responses (30_encoding.md R53). -/

namespace Sys2Proof.Machine

/-- An outcome that completes with exactly one more response than the state had, and that one well shaped. -/
def AnswersOnce (s : State) (o : Host.Outcome State Fault Refusal) : Prop :=
  ∃ t r, o = .next t ∧ t.responses = s.responses ++ [r] ∧ r.wellShaped = true

theorem answersOnce_respond {s u : State} {st : Status} {d : ResponseData} (hu : u.responses = s.responses)
    (hw : Response.wellShaped ⟨st, d⟩ = true) : AnswersOnce s (.next (respond st d u)) :=
  ⟨_, _, rfl, by rw [respond_responses, hu], hw⟩

@[simp] theorem ErrorCause.effect_responses (c : ErrorCause) (s : State) : (c.effect s).responses = s.responses := by
  cases c with
  | pendingOverflow a => exact setPhase_responses a .faulted s
  | _ => rfl

/-- An error carries no data. -/
theorem answersOnce_raise (c : ErrorCause) (s : State) : AnswersOnce s (.next (raise c s)) :=
  answersOnce_respond (c.effect_responses s) rfl

theorem answersOnce_ok_none {s u : State} (hu : u.responses = s.responses) :
    AnswersOnce s (.next (respond .ok .none u)) :=
  answersOnce_respond hu rfl

theorem answersOnce_ok_bytes {s u : State} {b : List Byte} (hu : u.responses = s.responses) (hb : b.length = 16) :
    AnswersOnce s (.next (respond .ok (.bytes b) u)) :=
  answersOnce_respond hu (by simp [Response.wellShaped, hb])

/-- `DIGEST` answers an error or sixteen bytes, specified or not. -/
theorem execDigestMd2_answersOnce (cap : Nat) (s : State) : AnswersOnce s (execDigestMd2 cap s) := by
  rcases execDigestMd2_cases cap s with ⟨-, -, hc⟩ | ⟨-, -, hc⟩ | ⟨-, -, hc⟩ | ⟨-, hc⟩ <;> rw [hc]
  · exact answersOnce_ok_bytes rfl s.e2.digestBytes_length
  · exact answersOnce_ok_bytes rfl (unspecifiedBytes_length .md2 s.draws2)
  · exact answersOnce_raise .smallBuffer s
  · exact answersOnce_raise .engineFaulted s

theorem execDigestMd4_answersOnce (cap : Nat) (s : State) : AnswersOnce s (execDigestMd4 cap s) := by
  rcases execDigestMd4_cases cap s with ⟨-, -, hc⟩ | ⟨-, -, hc⟩ | ⟨-, -, hc⟩ | ⟨-, hc⟩ <;> rw [hc]
  · exact answersOnce_ok_bytes rfl s.e4.digestBytes_length
  · exact answersOnce_ok_bytes rfl (unspecifiedBytes_length .md4 s.draws4)
  · exact answersOnce_raise .smallBuffer s
  · exact answersOnce_raise .engineFaulted s

/-- `FEED` and `FINALIZE` of either engine: an error, or `OK` with no data. -/
theorem answersOnce_of_absorbCheck {a : Algorithm} {s u : State} {o : Host.Outcome State Fault Refusal}
    (hu : u.responses = s.responses) (hraise : ∀ c, absorbCheck a s = some c → o = .next (raise c s))
    (hpass : absorbCheck a s = none → o = .next (respond .ok .none u)) : AnswersOnce s o := by
  cases hc : absorbCheck a s with
  | some c => exact hraise c hc ▸ answersOnce_raise c s
  | none => exact hpass hc ▸ answersOnce_ok_none hu

/-- Every command answers once, and in a shape of R53's table. -/
theorem exec_answersOnce (i : Instr) (s : State) : AnswersOnce s (exec i s) := by
  cases i with
  | resetMd2 | resetMd4 => exact answersOnce_ok_none rfl
  | feedMd2 p =>
    exact answersOnce_of_absorbCheck (a := .md2) (u := { s with e2 := s.e2.absorbAll p }) rfl
      (fun c hc => by simp only [exec_feedMd2, execFeedMd2, hc]) fun hc => by simp only [exec_feedMd2, execFeedMd2, hc]
  | finalizeMd2 =>
    exact answersOnce_of_absorbCheck (a := .md2) (u := { s with e2 := s.e2.finalize }) rfl
      (fun c hc => by simp only [exec_finalizeMd2, execFinalizeMd2, hc])
      fun hc => by simp only [exec_finalizeMd2, execFinalizeMd2, hc]
  | digestMd2 cap => exact execDigestMd2_answersOnce cap s
  | feedMd4 p =>
    exact answersOnce_of_absorbCheck (a := .md4) (u := { s with e4 := s.e4.absorbAll p }) rfl
      (fun c hc => by simp only [exec_feedMd4, execFeedMd4, hc]) fun hc => by simp only [exec_feedMd4, execFeedMd4, hc]
  | finalizeMd4 =>
    exact answersOnce_of_absorbCheck (a := .md4) (u := { s with e4 := s.e4.finalize }) rfl
      (fun c hc => by simp only [exec_finalizeMd4, execFinalizeMd4, hc])
      fun hc => by simp only [exec_finalizeMd4, execFinalizeMd4, hc]
  | digestMd4 cap => exact execDigestMd4_answersOnce cap s
  | blocksizeMd2 | blocksizeMd4 | digestbitsMd2 | digestbitsMd4 => exact answersOnce_respond rfl rfl

/-- A step leaves the responses as they are, or adds one in a shape of R53's table. -/
theorem step_responses {s t : State} (h : step s = .next t) :
    t.responses = s.responses ∨ ∃ r : Response, t.responses = s.responses ++ [r] ∧ r.wellShaped = true := by
  rcases step_cases s with ⟨-, hc⟩ | ⟨w, ws, -, ⟨-, hc⟩ | ⟨e, -, -, hc⟩ | ⟨i, rest, -, hc⟩⟩
  · cases hc.symm.trans h
    exact .inl rfl
  · cases hc.symm.trans h
    exact .inl rfl
  · cases hc.symm.trans h
    exact .inr ⟨_, rfl, rfl⟩
  · obtain ⟨u, r, hu, hr, hw⟩ := exec_answersOnce i { s with commandWords := ws, payloadStream := rest }
    cases hu.symm.trans (hc.symm.trans h)
    exact .inr ⟨r, hr, hw⟩

/-- Settles O47: the response a step adds, if any, is in a shape of R53's table. -/
theorem stepKeepsResponsesWellShaped : Obligations.StepKeepsResponsesWellShaped := by
  intro s t hs h
  rcases step_responses h with hr | ⟨r, hr, hw⟩
  · exact ⟨hr ▸ hs, .inl hr⟩
  · refine ⟨?_, .inr ⟨r, hr⟩⟩
    rw [hr, List.all_append, hs]
    simp [hw]

end Sys2Proof.Machine
end

section
/-! PROOFS. Writing a command as a line and reading it back (30_encoding.md R55). -/

namespace Sys2Proof.Machine

/-! ### The words of a line -/

/-- A character of a word of a line: neither a space nor the start of a comment or of a quoted string. -/
def WordChar (c : Char) : Prop := c ≠ ' ' ∧ c ≠ ';' ∧ c ≠ quoteChar

/-- A text that ends the word before it: it is empty or begins with a space. -/
def EndsWord (l : List Char) : Prop := l = [] ∨ ∃ l', l = ' ' :: l'

theorem lineWords_space (l : List Char) : lineWords (' ' :: l) = lineWords l := by
  simp [lineWords, splitSpaces]

theorem splitSpaces_word {w : List Char} (hw : ∀ c ∈ w, c ≠ ' ') (hne : w ≠ []) : splitSpaces w = [w] := by
  induction w with
  | nil => exact absurd rfl hne
  | cons c cs ih =>
    obtain ⟨hc, hcs⟩ := List.forall_mem_cons.mp hw
    cases cs with
    | nil => simp [splitSpaces, hc]
    | cons c' cs' => rw [splitSpaces, if_neg hc, ih hcs (by simp)]

theorem splitSpaces_word_space {w : List Char} (hw : ∀ c ∈ w, c ≠ ' ') (l : List Char) :
    splitSpaces (w ++ ' ' :: l) = w :: splitSpaces l := by
  induction w with
  | nil => rfl
  | cons c cs ih =>
    obtain ⟨hc, hcs⟩ := List.forall_mem_cons.mp hw
    rw [List.cons_append, splitSpaces, if_neg hc, ih hcs]

/-- The first word of a line. -/
theorem lineWords_word_append {w l : List Char} (hw : ∀ c ∈ w, WordChar c) (hne : w ≠ []) (hl : EndsWord l) :
    lineWords (w ++ l) = w :: lineWords l := by
  have hspace : ∀ c ∈ w, c ≠ ' ' := fun c hc => (hw c hc).1
  rcases hl with rfl | ⟨l', rfl⟩
  · simp [lineWords, splitSpaces_word hspace hne, splitSpaces, hne]
  · simp [lineWords, splitSpaces_word_space hspace, splitSpaces, hne]

/-- A line of one word. -/
theorem lineWords_word {w : List Char} (hw : ∀ c ∈ w, WordChar c) (hne : w ≠ []) : lineWords w = [w] := by
  rw [← List.append_nil w, lineWords_word_append hw hne (.inl rfl)]
  simp [lineWords, splitSpaces]

theorem stripComment_eq_self {l : List Char} (hl : ∀ c ∈ l, c ≠ ';' ∧ c ≠ quoteChar) :
    stripComment false l = l := by
  induction l with
  | nil => rfl
  | cons c cs ih =>
    obtain ⟨⟨hs, hq⟩, hcs⟩ := List.forall_mem_cons.mp hl
    rw [stripComment, if_neg hq, if_neg (by simp [hs]), ih hcs]

/-! ### Hexadecimal digits -/

theorem hexDigit_wordChar : ∀ n < 16, WordChar (hexDigit n) := by
  unfold WordChar
  decide

theorem hexValue_hexDigit : ∀ n < 16, hexValue (hexDigit n) = some n := by
  decide

theorem parseHexByte_hexByte (b : Byte) : parseHexByte (hexByte b) = some b := by
  have hb := b.isLt
  have hhi : b.toNat / 16 < 16 := by omega
  have hlo : b.toNat % 16 < 16 := by omega
  have hbyte : BitVec.ofNat 8 (16 * (b.toNat / 16) + b.toNat % 16) = b := by
    rw [Nat.div_add_mod, BitVec.ofNat_toNat, BitVec.setWidth_eq]
  simp [hexByte, parseHexByte, hexValue_hexDigit _ hhi, hexValue_hexDigit _ hlo, hbyte]

theorem hexByte_wordChar (b : Byte) : ∀ c ∈ hexByte b, WordChar c := by
  have hb := b.isLt
  have hhi := hexDigit_wordChar (b.toNat / 16) (by omega)
  have hlo := hexDigit_wordChar (b.toNat % 16) (by omega)
  simp [hexByte, hhi, hlo]

theorem parseHexBytes_map_hexByte (bs : List Byte) : parseHexBytes (bs.map hexByte) = some bs := by
  induction bs with
  | nil => rfl
  | cons b bs ih => simp [parseHexBytes, parseHexByte_hexByte, ih]

/-! ### Decimal numbers -/

theorem parseDigit_hexDigit (acc : Nat) {n : Nat} (hn : n < 10) :
    parseDigit (some acc) (hexDigit n) = some (10 * acc + n) := by
  have hcode : ∀ n < 10, (hexDigit n).toNat = 48 + n := by decide
  rw [parseDigit, hcode n hn, if_pos (by omega), Nat.add_sub_cancel_left]

/-- Reading the digits of `n` from the left has read `n` when it comes to what follows them. -/
theorem foldl_parseDigit_decimalBefore {fuel n : Nat} (hn : n < fuel) (tail : List Char) :
    (decimalBefore fuel n tail).foldl parseDigit (some 0) = tail.foldl parseDigit (some n) := by
  induction fuel generalizing n tail with
  | zero => omega
  | succ fuel ih =>
    rw [decimalBefore]
    split
    next h => rw [List.foldl_cons, parseDigit_hexDigit 0 h, Nat.mul_zero, Nat.zero_add]
    next h =>
      rw [ih (by omega), List.foldl_cons, parseDigit_hexDigit _ (by omega), Nat.div_add_mod]

theorem decimalBefore_ne_nil {fuel n : Nat} (hn : n < fuel) (tail : List Char) : decimalBefore fuel n tail ≠ [] := by
  induction fuel generalizing n tail with
  | zero => omega
  | succ fuel ih =>
    rw [decimalBefore]
    split
    next => simp
    next h => exact ih (by omega) _

theorem decimalBefore_wordChar (fuel n : Nat) {tail : List Char} (ht : ∀ c ∈ tail, WordChar c) :
    ∀ c ∈ decimalBefore fuel n tail, WordChar c := by
  induction fuel generalizing n tail with
  | zero => exact ht
  | succ fuel ih =>
    rw [decimalBefore]
    split
    next h => exact List.forall_mem_cons.mpr ⟨hexDigit_wordChar n (by omega), ht⟩
    next h => exact ih _ (List.forall_mem_cons.mpr ⟨hexDigit_wordChar _ (by omega), ht⟩)

theorem decimal_ne_nil (n : Nat) : decimal n ≠ [] := decimalBefore_ne_nil (Nat.lt_succ_self n) []

theorem decimal_wordChar (n : Nat) : ∀ c ∈ decimal n, WordChar c :=
  decimalBefore_wordChar (n + 1) n (by simp)

theorem parseDecimal_decimal (n : Nat) : parseDecimal (decimal n) = some n := by
  have hfold : (decimal n).foldl parseDigit (some 0) = some n :=
    foldl_parseDigit_decimalBefore (Nat.lt_succ_self n) []
  cases hd : decimal n with
  | nil => exact absurd hd (decimal_ne_nil n)
  | cons c cs => rwa [hd] at hfold

/-! ### Operands -/

theorem parseNumber_decimal (n : Nat) : parseNumber (' ' :: decimal n) = some n := by
  simp only [parseNumber, lineWords_space, lineWords_word (decimal_wordChar n) (decimal_ne_nil n),
    parseDecimal_decimal]

/-- Two-digit bytes with a space before each. -/
def spacedBytes (bs : List Byte) : List Char := bs.flatMap fun b => ' ' :: hexByte b

theorem spacedBytes_cons (b : Byte) (bs : List Byte) :
    spacedBytes (b :: bs) = ' ' :: (hexByte b ++ spacedBytes bs) := rfl

theorem bytesOperand_cons (b : Byte) (bs : List Byte) : bytesOperand (b :: bs) = spacedBytes (b :: bs) := rfl

theorem endsWord_spacedBytes (bs : List Byte) : EndsWord (spacedBytes bs) := by
  cases bs with
  | nil => exact .inl rfl
  | cons b bs => exact .inr ⟨_, rfl⟩

theorem lineWords_spacedBytes (bs : List Byte) : lineWords (spacedBytes bs) = bs.map hexByte := by
  induction bs with
  | nil => rfl
  | cons b bs ih =>
    rw [spacedBytes_cons, lineWords_space, lineWords_word_append (hexByte_wordChar b)
      (by simp [hexByte]) (endsWord_spacedBytes bs), ih, List.map_cons]

/-- Words of two characters are neither `none` nor a repetition `<n> x <hh>`: they are read as bytes. -/
theorem parseBytes_of_twoDigitWords {l cs : List Char} {c : Char} (hl : l.dropWhile (· = ' ') = c :: cs)
    (hc : c ≠ quoteChar) (htwo : ∀ t ∈ lineWords (c :: cs), t.length = 2) :
    parseBytes l = parseHexBytes (lineWords (c :: cs)) := by
  simp only [parseBytes, hl, if_neg hc]
  split
  next t hw =>
    have ht : t ≠ ['n', 'o', 'n', 'e'] := by
      rintro rfl
      simp [hw] at htwo
    rw [if_neg ht, hw]
  next n x hh hw =>
    have hx : x ≠ ['x'] := by
      rintro rfl
      simp [hw] at htwo
    rw [if_neg hx, hw]
  next => rfl

theorem parseBytes_bytesOperand (bs : List Byte) : parseBytes (bytesOperand bs) = some bs := by
  cases bs with
  | nil => decide
  | cons b bs =>
    have hb := b.isLt
    obtain ⟨hspace, -, hquote⟩ := hexDigit_wordChar (b.toNat / 16) (by omega)
    have hdrop : (bytesOperand (b :: bs)).dropWhile (· = ' ') =
        hexDigit (b.toNat / 16) :: hexDigit (b.toNat % 16) :: spacedBytes bs := by
      simp [bytesOperand_cons, spacedBytes_cons, hexByte, hspace]
    have hwords : lineWords (hexDigit (b.toNat / 16) :: hexDigit (b.toNat % 16) :: spacedBytes bs) =
        (b :: bs).map hexByte := by
      rw [← lineWords_spacedBytes, spacedBytes_cons, lineWords_space]
      rfl
    have htwo : ∀ t ∈ (b :: bs).map hexByte, t.length = 2 := by simp [hexByte]
    rw [parseBytes_of_twoDigitWords hdrop hquote (hwords ▸ htwo), hwords, parseHexBytes_map_hexByte]

/-! ### Commands -/

/-- Reading the operand field that is written for a command. -/
theorem parseCommand_operandText (i : Instr) (h : i.wellFormed = true) :
    parseCommand i.op i.alg (Instr.operandText i) = some i := by
  cases i with
  | feedMd2 p | feedMd4 p =>
    have hp : p.length ≤ maxLen := of_decide_eq_true h
    simp only [Instr.op, Instr.alg, Instr.operandText, Instr.payload, parseCommand, parseBytes_bytesOperand,
      if_pos hp]
    rfl
  | digestMd2 cap | digestMd4 cap =>
    have hc : cap ≤ maxLen := of_decide_eq_true h
    simp only [Instr.op, Instr.alg, Instr.operandText, Instr.len, parseCommand, parseNumber_decimal, if_pos hc]
    rfl
  | _ => rfl

theorem endsWord_operandText (i : Instr) : EndsWord (Instr.operandText i) := by
  cases i with
  | feedMd2 p | feedMd4 p =>
    cases p with
    | nil => exact .inr ⟨_, rfl⟩
    | cons b bs => exact .inr ⟨_, rfl⟩
  | digestMd2 cap | digestMd4 cap => exact .inr ⟨_, rfl⟩
  | _ => exact .inl rfl

/-- No character of the operand begins a comment or a quoted string. -/
theorem operandText_plain (i : Instr) : ∀ c ∈ Instr.operandText i, c ≠ ';' ∧ c ≠ quoteChar := by
  have hbytes (bs : List Byte) : ∀ c ∈ bytesOperand bs, c ≠ ';' ∧ c ≠ quoteChar := by
    cases bs with
    | nil => simp [bytesOperand, quoteChar]
    | cons b bs =>
      intro c hc
      rw [bytesOperand_cons, spacedBytes, List.mem_flatMap] at hc
      obtain ⟨x, -, hx⟩ := hc
      rcases List.mem_cons.mp hx with rfl | hx
      · decide
      · exact (hexByte_wordChar x c hx).2
  have hnumber (n : Nat) : ∀ c ∈ ' ' :: decimal n, c ≠ ';' ∧ c ≠ quoteChar :=
    List.forall_mem_cons.mpr ⟨by decide, fun c hc => (decimal_wordChar n c hc).2⟩
  cases i with
  | feedMd2 p | feedMd4 p => exact hbytes p
  | digestMd2 cap | digestMd4 cap => exact hnumber cap
  | _ => simp [Instr.operandText, Instr.op]

/-! ### Mnemonics -/

theorem mnemonicText_wordChar (op : Op) (a : Algorithm) : ∀ c ∈ mnemonicText op a, WordChar c := by
  cases op <;> cases a <;> simp [mnemonicText, Op.text, Algorithm.text, WordChar, quoteChar]

theorem mnemonicText_ne_nil (op : Op) (a : Algorithm) : mnemonicText op a ≠ [] := by
  simp [mnemonicText]

theorem lookup_mnemonicText (op : Op) (a : Algorithm) : mnemonicTable.lookup (mnemonicText op a) = some (op, a) := by
  cases op <;> cases a <;> decide

/-- A line with a mnemonic of the opcode map is read by its operand field. -/
theorem parseLine_mnemonicText (op : Op) (a : Algorithm) {operand : List Char} (hend : EndsWord operand)
    (hplain : ∀ c ∈ operand, c ≠ ';' ∧ c ≠ quoteChar) :
    parseLine (mnemonicText op a ++ operand) = (parseCommand op a operand).map ([·]) := by
  have hword : ∀ c ∈ mnemonicText op a, (decide (c ≠ ' ')) = true := fun c hc =>
    decide_eq_true (mnemonicText_wordChar op a c hc).1
  have hstrip : stripComment false (mnemonicText op a ++ operand) = mnemonicText op a ++ operand :=
    stripComment_eq_self (List.forall_mem_append.mpr ⟨fun c hc => (mnemonicText_wordChar op a c hc).2, hplain⟩)
  have hhead : (mnemonicText op a ++ operand).takeWhile (· ≠ ' ') = mnemonicText op a := by
    rw [List.takeWhile_append_of_pos hword]
    rcases hend with rfl | ⟨l, rfl⟩ <;> simp
  have htail : (mnemonicText op a ++ operand).dropWhile (· ≠ ' ') = operand := by
    rw [List.dropWhile_append_of_pos hword]
    rcases hend with rfl | ⟨l, rfl⟩ <;> simp
  obtain ⟨c, cs, hm⟩ := List.exists_cons_of_ne_nil (mnemonicText_ne_nil op a)
  have hfirst : (mnemonicText op a ++ operand).dropWhile (· = ' ') = c :: (cs ++ operand) := by
    have hc : c ≠ ' ' := (mnemonicText_wordChar op a c (hm ▸ List.mem_cons_self)).1
    simp [hm, hc]
  have hline : mnemonicText op a ++ operand = c :: (cs ++ operand) := by rw [hm, List.cons_append]
  rw [hline] at hhead htail
  simp only [parseLine, hstrip, hfirst, hhead, htail, lookup_mnemonicText]

/-- Settles O53: the mnemonic is found in the table, and the operand field reads back as the command's operand. -/
theorem writtenLinesAreReadBack : Obligations.WrittenLinesAreReadBack := by
  intro i hwf
  rw [Instr.text, parseLine_mnemonicText i.op i.alg (endsWord_operandText i) (operandText_plain i),
    parseCommand_operandText i hwf, Option.map_some]

end Sys2Proof.Machine
end

section
/-! PROOFS. The expansions of the pseudo-commands (30_encoding.md R56). -/

namespace Sys2Proof.Machine

/-! ### The pieces of a `FEEDL` -/

theorem pieces_flatten (fuel : Nat) (bytes : List Byte) : (pieces fuel bytes).flatten = bytes := by
  induction fuel generalizing bytes with
  | zero => simp [pieces]
  | succ fuel ih =>
    rw [pieces]
    split
    next => simp
    next => rw [List.flatten_cons, ih, List.take_append_drop]

/-- With a round for each byte, every piece fits the `len` field. -/
theorem length_le_of_mem_pieces {fuel : Nat} {bytes p : List Byte} (hf : bytes.length ≤ fuel)
    (hp : p ∈ pieces fuel bytes) : p.length ≤ maxLen := by
  induction fuel generalizing bytes with
  | zero =>
    rw [pieces, List.mem_singleton] at hp
    rw [hp]
    omega
  | succ fuel ih =>
    rw [pieces] at hp
    split at hp
    next h => rwa [List.mem_singleton.mp hp]
    next h =>
      rcases List.mem_cons.mp hp with rfl | hp
      · exact List.length_take_le _ _
      · refine ih ?_ hp
        rw [List.length_drop, maxLen]
        omega

/-- The number of pieces: each but the last takes `maxLen` bytes. -/
theorem pieces_length {fuel : Nat} {bytes : List Byte} (hf : bytes.length ≤ fuel) :
    (pieces fuel bytes).length = if bytes = [] then 1 else (bytes.length + 65534) / 65535 := by
  induction fuel generalizing bytes with
  | zero =>
    have hnil : bytes = [] := List.eq_nil_of_length_eq_zero (by omega)
    simp [pieces, hnil]
  | succ fuel ih =>
    by_cases hnil : bytes = []
    · simp [pieces, hnil]
    · have hpos := List.length_pos_iff.mpr hnil
      rw [if_neg hnil, pieces]
      split
      next h =>
        rw [maxLen] at h
        rw [List.length_singleton]
        omega
      next h =>
        rw [maxLen] at h ⊢
        have hlen : (bytes.drop 65535).length = bytes.length - 65535 := List.length_drop
        have hrest : bytes.drop 65535 ≠ [] := List.ne_nil_of_length_pos (by omega)
        rw [List.length_cons, ih (by omega), if_neg hrest]
        omega

/-- Settles O54: the pieces are those of `pieces`, with a round for each byte; the other expansions are read off
their definition. -/
theorem pseudoCommandsExpand : Obligations.PseudoCommandsExpand := by
  intro bytes
  refine ⟨⟨pieces bytes.length bytes, pieces_flatten _ bytes, fun p hp => length_le_of_mem_pieces le_rfl hp,
    pieces_length le_rfl, rfl, rfl⟩, rfl, rfl, rfl, rfl⟩

end Sys2Proof.Machine
end

section
/-! PROOFS. What a command does, said once for both engines: the check of 40_interface.md R61, then the effect and the
answer, or the error. -/

namespace Sys2Proof.Machine

/-! ### The effects of the operations, on the engine of the given name -/

/-- The effect of `RESET` (R85, R113). -/
def resetEngine (a : Algorithm) (s : State) : State :=
  match a with
  | .md2 => { s with e2 := Md2Engine.reset }
  | .md4 => { s with e4 := Md4Engine.reset }

/-- The effect of an accepted `FEED` (R86, R114). -/
def feedEngine (a : Algorithm) (p : List Byte) (s : State) : State :=
  match a with
  | .md2 => { s with e2 := s.e2.absorbAll p }
  | .md4 => { s with e4 := s.e4.absorbAll p }

/-- The effect of an accepted `FINALIZE` (R87, R115). -/
def finalizeEngine (a : Algorithm) (s : State) : State :=
  match a with
  | .md2 => { s with e2 := s.e2.finalize }
  | .md4 => { s with e4 := s.e4.finalize }

/-- The draw of sixteen unspecified bytes on the model's counter (log 5). -/
def drawBytes (a : Algorithm) (s : State) : State :=
  match a with
  | .md2 => { s with draws2 := s.draws2 + digestLength }
  | .md4 => { s with draws4 := s.draws4 + digestLength }

/-- The model's counter of unspecified bytes drawn (log 5). -/
def drawsOf (a : Algorithm) (s : State) : Nat :=
  match a with
  | .md2 => s.draws2
  | .md4 => s.draws4

/-- The digest bytes in the engine (R88, R116). -/
def digestBytesOf (a : Algorithm) (s : State) : List Byte :=
  match a with
  | .md2 => s.e2.digestBytes
  | .md4 => s.e4.digestBytes

@[simp] theorem resetEngine_responses (a : Algorithm) (s : State) : (resetEngine a s).responses = s.responses := by
  cases a <;> rfl

@[simp] theorem feedEngine_responses (a : Algorithm) (p : List Byte) (s : State) :
    (feedEngine a p s).responses = s.responses := by
  cases a <;> rfl

@[simp] theorem finalizeEngine_responses (a : Algorithm) (s : State) :
    (finalizeEngine a s).responses = s.responses := by
  cases a <;> rfl

@[simp] theorem drawBytes_responses (a : Algorithm) (s : State) : (drawBytes a s).responses = s.responses := by
  cases a <;> rfl

@[simp] theorem respond_phaseOf (st : Status) (d : ResponseData) (a : Algorithm) (s : State) :
    phaseOf a (respond st d s) = phaseOf a s := by
  cases a <;> rfl

@[simp] theorem setPhase_phaseOf (a : Algorithm) (p : Phase) (s : State) : phaseOf a (setPhase a p s) = p := by
  cases a <;> rfl

@[simp] theorem resetEngine_phaseOf (a : Algorithm) (s : State) : phaseOf a (resetEngine a s) = .absorbing := by
  cases a <;> rfl

@[simp] theorem feedEngine_phaseOf (a : Algorithm) (p : List Byte) (s : State) :
    phaseOf a (feedEngine a p s) = phaseOf a s := by
  cases a <;> simp [feedEngine]

@[simp] theorem finalizeEngine_phaseOf (a : Algorithm) (s : State) : phaseOf a (finalizeEngine a s) = .finalized := by
  cases a <;> simp [finalizeEngine]

@[simp] theorem drawBytes_phaseOf (a : Algorithm) (s : State) : phaseOf a (drawBytes a s) = phaseOf a s := by
  cases a <;> rfl

/-! ### The check, the effect and the answer of a command -/

/-- The error of R61's checks that the command raises, if any. -/
def commandCheck (i : Instr) (s : State) : Option ErrorCause :=
  match i.op with
  | .feed => absorbCheck i.alg s
  | .finalize => absorbCheck i.alg s
  | .digest => digestCheck i.alg i.len s
  | .reset => none
  | .blocksize => none
  | .digestbits => none

/-- The effect of a command that passes its check. -/
def commandEffect (i : Instr) (s : State) : State :=
  match i.op with
  | .reset => resetEngine i.alg s
  | .feed => feedEngine i.alg i.payload s
  | .finalize => finalizeEngine i.alg s
  | .digest => if phaseOf i.alg s = .finalized then s else drawBytes i.alg s
  | .blocksize => s
  | .digestbits => s

/-- The data of a command that passes its check. -/
def commandData (i : Instr) (s : State) : ResponseData :=
  match i.op with
  | .digest =>
    .bytes (if phaseOf i.alg s = .finalized then digestBytesOf i.alg s else unspecifiedBytes i.alg (drawsOf i.alg s))
  | .blocksize => .number (BitVec.ofNat 32 (blockSize i.alg))
  | .digestbits => .number (BitVec.ofNat 32 (digestSizeBits i.alg))
  | .reset => .none
  | .feed => .none
  | .finalize => .none

/-- The state after a command. -/
def commandResult (i : Instr) (s : State) : State :=
  match commandCheck i s with
  | some c => raise c s
  | none => respond .ok (commandData i s) (commandEffect i s)

/-- The response to a command. -/
def commandResponse (i : Instr) (s : State) : Response :=
  match commandCheck i s with
  | some c => ⟨c.status, .none⟩
  | none => ⟨.ok, commandData i s⟩

theorem commandResult_of_raise {i : Instr} {s : State} {c : ErrorCause} (h : commandCheck i s = some c) :
    commandResult i s = raise c s := by
  simp only [commandResult, h]

theorem commandResult_of_pass {i : Instr} {s : State} (h : commandCheck i s = none) :
    commandResult i s = respond .ok (commandData i s) (commandEffect i s) := by
  simp only [commandResult, h]

theorem commandResponse_of_raise {i : Instr} {s : State} {c : ErrorCause} (h : commandCheck i s = some c) :
    commandResponse i s = ⟨c.status, .none⟩ := by
  simp only [commandResponse, h]

theorem commandResponse_of_pass {i : Instr} {s : State} (h : commandCheck i s = none) :
    commandResponse i s = ⟨.ok, commandData i s⟩ := by
  simp only [commandResponse, h]

/-- Every command completes, in the state of its check, effect and answer. -/
theorem exec_eq_commandResult (i : Instr) (s : State) : exec i s = .next (commandResult i s) := by
  cases i with
  | resetMd2 => exact execResetMd2_eq s
  | resetMd4 => exact execResetMd4_eq s
  | blocksizeMd2 | blocksizeMd4 | digestbitsMd2 | digestbitsMd4 => rfl
  | feedMd2 _ | finalizeMd2 =>
    simp only [exec, execFeedMd2, execFinalizeMd2, commandResult, commandCheck, Instr.op, Instr.alg]
    cases absorbCheck .md2 s <;> rfl
  | feedMd4 _ | finalizeMd4 =>
    simp only [exec, execFeedMd4, execFinalizeMd4, commandResult, commandCheck, Instr.op, Instr.alg]
    cases absorbCheck .md4 s <;> rfl
  | digestMd2 cap =>
    simp only [exec, execDigestMd2, commandResult, commandCheck, commandData, commandEffect, Instr.op, Instr.alg,
      Instr.len, phaseOf_md2]
    cases digestCheck .md2 cap s with
    | some c => rfl
    | none => by_cases hf : s.e2.phase = .finalized <;> simp only [hf, ↓reduceIte] <;> rfl
  | digestMd4 cap =>
    simp only [exec, execDigestMd4, commandResult, commandCheck, commandData, commandEffect, Instr.op, Instr.alg,
      Instr.len, phaseOf_md4]
    cases digestCheck .md4 cap s with
    | some c => rfl
    | none => by_cases hf : s.e4.phase = .finalized <;> simp only [hf, ↓reduceIte] <;> rfl

@[simp] theorem commandEffect_responses (i : Instr) (s : State) : (commandEffect i s).responses = s.responses := by
  unfold commandEffect
  cases i.op with
  | digest => simp only; split <;> simp
  | _ => simp

@[simp] theorem commandResult_responses (i : Instr) (s : State) :
    (commandResult i s).responses = s.responses ++ [commandResponse i s] := by
  cases hc : commandCheck i s with
  | some c => simp [commandResult_of_raise hc, commandResponse_of_raise hc, raise]
  | none => simp [commandResult_of_pass hc, commandResponse_of_pass hc]

/-! ### Runs of commands -/

/-- The state after a run of commands. -/
def runResult (is : List Instr) (s : State) : State := is.foldl (fun t i => commandResult i t) s

@[simp] theorem runResult_nil (s : State) : runResult [] s = s := rfl

@[simp] theorem runResult_cons (i : Instr) (is : List Instr) (s : State) :
    runResult (i :: is) s = runResult is (commandResult i s) := rfl

theorem runResult_append (is js : List Instr) (s : State) :
    runResult (is ++ js) s = runResult js (runResult is s) := List.foldl_append

/-- Every run of commands completes. -/
theorem runCommands_eq_runResult (is : List Instr) (s : State) : runCommands is s = .next (runResult is s) := by
  induction is generalizing s with
  | nil => rfl
  | cons i is ih => rw [runCommands_cons (exec_eq_commandResult i s), ih, runResult_cons]

/-- A run of commands only adds responses. -/
theorem runResult_responses (is : List Instr) (s : State) :
    ∃ rs, (runResult is s).responses = s.responses ++ rs := by
  induction is generalizing s with
  | nil => exact ⟨[], by simp⟩
  | cons i is ih =>
    obtain ⟨rs, h⟩ := ih (commandResult i s)
    exact ⟨commandResponse i s :: rs, by simp [h]⟩

end Sys2Proof.Machine
end

section
/-! PROOFS. The command port: what a step takes from it, and that commands run in the order of issue (40_interface.md
R60, 30_encoding.md R45). -/

namespace Sys2Proof.Machine

/-! ### One step -/

theorem step_of_idle {s : State} (h : s.commandWords = []) : step s = .next s := by
  rcases step_cases s with ⟨-, hc⟩ | ⟨w, ws, hw, -⟩
  · exact hc
  · rw [h] at hw
    cases hw

/-- With a word on the port, a step does what the decoder's answer says. -/
theorem step_cases_of_word {s : State} {w : Word} {ws : List Word} (h : s.commandWords = w :: ws) :
    (decode w s.payloadStream = .error .payloadIncomplete ∧ step s = .next s) ∨
    (∃ r, r ≠ .payloadIncomplete ∧ decode w s.payloadStream = .error r) ∨
    (∃ i rest, decode w s.payloadStream = .ok (i, rest) ∧
      step s = exec i { s with commandWords := ws, payloadStream := rest }) := by
  rcases step_cases s with ⟨hw, -⟩ | ⟨w', ws', hw, hstep⟩
  · rw [h] at hw
    cases hw
  · rw [h] at hw
    cases hw
    exact hstep.imp_right (Or.imp_left fun ⟨r, hr, hd, _⟩ => ⟨r, hr, hd⟩)

theorem step_of_waiting {s : State} {w : Word} {ws : List Word} (h : s.commandWords = w :: ws)
    (hd : decode w s.payloadStream = .error .payloadIncomplete) : step s = .next s := by
  rcases step_cases_of_word h with ⟨-, hc⟩ | ⟨r, hr, hd'⟩ | ⟨i, rest, hd', -⟩
  · exact hc
  · cases hd.symm.trans hd'
    exact absurd rfl hr
  · cases hd.symm.trans hd'

theorem step_of_command {s : State} {w : Word} {ws : List Word} {i : Instr} {rest : List Byte}
    (h : s.commandWords = w :: ws) (hd : decode w s.payloadStream = .ok (i, rest)) :
    step s = exec i { s with commandWords := ws, payloadStream := rest } := by
  rcases step_cases_of_word h with ⟨hd', -⟩ | ⟨r, -, hd'⟩ | ⟨i', rest', hd', hc⟩
  · cases hd.symm.trans hd'
  · cases hd.symm.trans hd'
  · cases hd.symm.trans hd'
    exact hc

/-- A `FEED` with too few payload bytes on the port is not whole. -/
theorem assemble_feed_short (a : Algorithm) {len : Nat} {stream : List Byte} (h : stream.length < len) :
    assemble .feed a len stream = .error .payloadIncomplete := by
  have ht : takePayload len stream = .error .payloadIncomplete := if_neg (Nat.not_le.mpr h)
  cases a <;> simp only [assemble, ht] <;> rfl

/-- Settles O7: of what a step can do with a word on the port, a decoded command leaves `exec` alone. -/
theorem stepRunsTheDecodedCommand : Obligations.StepRunsTheDecodedCommand :=
  fun _ _ _ _ _ => step_of_command

/-- Settles O9: the fields of the word are those of a `FEED`, which the decoder answers as incomplete. -/
theorem stepWithoutAWholeCommandChangesNothing : Obligations.StepWithoutAWholeCommandChangesNothing := by
  refine fun s => ⟨step_of_idle, fun w ws hw ho ha hr hl => step_of_waiting hw ?_⟩
  obtain ⟨a, ha'⟩ : ∃ a : Algorithm, algField w = a.number := by
    rcases Nat.le_one_iff_eq_zero_or_eq_one.mp ha with h | h
    · exact ⟨.md2, h⟩
    · exact ⟨.md4, h⟩
  rw [decode_of_fields (op := .feed) ho ha' hr (by rintro ⟨⟩)]
  exact assemble_feed_short a hl

/-! ### Commands do not see the port -/

/-- The state with the given words and payload bytes on the port. -/
def State.withPort (words : List Word) (stream : List Byte) (s : State) : State :=
  { s with commandWords := words, payloadStream := stream }

theorem raise_withPort (c : ErrorCause) (ws : List Word) (ps : List Byte) (s : State) :
    raise c (s.withPort ws ps) = (raise c s).withPort ws ps := by
  cases c with
  | pendingOverflow a => cases a <;> rfl
  | _ => rfl

theorem commandCheck_withPort (i : Instr) (ws : List Word) (ps : List Byte) (s : State) :
    commandCheck i (s.withPort ws ps) = commandCheck i s := by
  cases i <;> rfl

theorem commandData_withPort (i : Instr) (ws : List Word) (ps : List Byte) (s : State) :
    commandData i (s.withPort ws ps) = commandData i s := by
  cases i <;> rfl

theorem commandEffect_withPort (i : Instr) (ws : List Word) (ps : List Byte) (s : State) :
    commandEffect i (s.withPort ws ps) = (commandEffect i s).withPort ws ps := by
  cases i with
  | digestMd2 cap => exact (apply_ite (State.withPort ws ps) (s.e2.phase = .finalized) s (drawBytes .md2 s)).symm
  | digestMd4 cap => exact (apply_ite (State.withPort ws ps) (s.e4.phase = .finalized) s (drawBytes .md4 s)).symm
  | _ => rfl

/-- A command neither reads nor writes the port (10_state.md R26). -/
theorem commandResult_withPort (i : Instr) (ws : List Word) (ps : List Byte) (s : State) :
    commandResult i (s.withPort ws ps) = (commandResult i s).withPort ws ps := by
  have hcheck := commandCheck_withPort i ws ps s
  cases hc : commandCheck i s with
  | some c => rw [commandResult_of_raise hc, commandResult_of_raise (hcheck.trans hc), raise_withPort]
  | none =>
    rw [commandResult_of_pass hc, commandResult_of_pass (hcheck.trans hc), commandData_withPort,
      commandEffect_withPort]
    rfl

theorem runResult_withPort (is : List Instr) (ws : List Word) (ps : List Byte) (s : State) :
    runResult is (s.withPort ws ps) = (runResult is s).withPort ws ps := by
  induction is generalizing s with
  | nil => rfl
  | cons i is ih => rw [runResult_cons, commandResult_withPort, ih, runResult_cons]

/-! ### Issued commands -/

/-- A step takes the first of the commands on the port, and leaves the others there. -/
theorem step_withPort_encode {i : Instr} (hwf : i.wellFormed = true) (ws : List Word) (ps : List Byte) (s : State) :
    step (s.withPort ((encode i).1 :: ws) ((encode i).2 ++ ps)) = .next ((commandResult i s).withPort ws ps) := by
  rw [step_of_command (i := i) (ws := ws) (rest := ps) rfl (decodeOfEncodeIsTheCommand i ps hwf),
    ← commandResult_withPort]
  exact exec_eq_commandResult i _

/-- With nothing but issued commands on the port, a step for each of them runs them all. -/
theorem core_run_issued {is : List Instr} (hwf : ∀ i ∈ is, i.wellFormed = true) (s : State) :
    Sys2Proof.core.run is.length
      (s.withPort (is.map fun i => (encode i).1) (is.flatMap fun i => (encode i).2)) =
      .next ((runResult is s).withPort [] []) := by
  induction is generalizing s with
  | nil => rfl
  | cons i is ih =>
    obtain ⟨hi, his⟩ := List.forall_mem_cons.mp hwf
    rw [List.length_cons, List.map_cons, List.flatMap_cons, core_run_succ _ (step_withPort_encode hi _ _ s), ih his,
      runResult_cons]

/-- Settles O11, by induction on the issued commands: each step takes one from the port, and the command does not see
the others. -/
theorem issuedCommandsRunInOrder : Obligations.IssuedCommandsRunInOrder := by
  intro is s hwf hw hp
  have hissue : s.issue is = s.withPort (is.map fun i => (encode i).1) (is.flatMap fun i => (encode i).2) := by
    simp [State.issue, State.withPort, hw, hp]
  have hempty : s.withPort [] [] = s := by
    rw [State.withPort, ← hw, ← hp]
  have hrun := core_run_issued hwf s
  rw [← runResult_withPort, hempty] at hrun
  rw [hissue, runCommands_eq_runResult]
  exact hrun

end Sys2Proof.Machine
end

section
/-! PROOFS. The lifecycle of an engine and what errors change (40_interface.md R62, R71). -/

namespace Sys2Proof.Machine

/-! ### The lifecycle table (R62) -/

theorem commandCheck_of_absorbs {i : Instr} (h : i.op = .feed ∨ i.op = .finalize) (s : State) :
    commandCheck i s = absorbCheck i.alg s := by
  rcases h with h | h <;> simp only [commandCheck, h]

theorem commandCheck_of_digest {i : Instr} (h : i.op = .digest) (s : State) :
    commandCheck i s = digestCheck i.alg i.len s := by
  simp only [commandCheck, h]

/-- The phase after a command that passes its check. -/
theorem commandEffect_phaseOf (i : Instr) (s : State) :
    phaseOf i.alg (commandEffect i s) =
      match i.op with
      | .reset => .absorbing
      | .finalize => .finalized
      | _ => phaseOf i.alg s := by
  cases hop : i.op with
  | digest =>
    simp only [commandEffect, hop]
    split <;> simp
  | _ => simp [commandEffect, hop]

/-- The status and the phase of R62's table, read off the check: an error has its status and its effect on the phase,
a command that passes answers `OK`. -/
theorem commandResult_lifecycle (i : Instr) (s : State) :
    ((commandResponse i s).status, phaseOf i.alg (commandResult i s)) =
      lifecycle (phaseOf i.alg s) (decide (blockSize i.alg ≤ pendingLengthOf i.alg s)) (decide (16 ≤ i.len)) i.op := by
  cases hop : i.op with
  | reset | blocksize | digestbits =>
    have hc : commandCheck i s = none := by simp only [commandCheck, hop]
    simp [commandResponse_of_pass hc, commandResult_of_pass hc, commandEffect_phaseOf, hop, lifecycle]
  | feed | finalize =>
    have hcheck := commandCheck_of_absorbs (i := i) (by simp [hop]) s
    rcases absorbCheck_cases i.alg s with ⟨h, hp, hc⟩ | ⟨h, hp, hc⟩ | ⟨h, hc⟩ | ⟨h, hc⟩ <;> rw [← hcheck] at hc
    · simp [commandResponse_of_pass hc, commandResult_of_pass hc, commandEffect_phaseOf, hop, lifecycle, h,
        Nat.not_le.mpr hp]
    · simp [commandResponse_of_raise hc, commandResult_of_raise hc, ErrorCause.status, lifecycle, h, hp]
    · simp [commandResponse_of_raise hc, commandResult_of_raise hc, ErrorCause.status, lifecycle, h]
    · simp [commandResponse_of_raise hc, commandResult_of_raise hc, ErrorCause.status, lifecycle, h]
  | digest =>
    have hcheck := commandCheck_of_digest hop s
    rcases digestCheck_cases i.alg i.len s with ⟨h, hl, hc⟩ | ⟨h, hl, hc⟩ | ⟨h, hc⟩ <;> rw [← hcheck] at hc
    · cases hph : phaseOf i.alg s with
      | faulted => exact absurd hph h
      | absorbing | finalized =>
        simp [commandResponse_of_pass hc, commandResult_of_pass hc, commandEffect_phaseOf, hop, lifecycle, hl, hph]
    · cases hph : phaseOf i.alg s with
      | faulted => exact absurd hph h
      | absorbing | finalized =>
        simp [commandResponse_of_raise hc, commandResult_of_raise hc, ErrorCause.status, lifecycle, hl, hph]
    · simp [commandResponse_of_raise hc, commandResult_of_raise hc, ErrorCause.status, lifecycle, h]

/-- A `DIGEST` with room of an engine that is not `FAULTED` passes its check. -/
theorem commandCheck_digest_room {i : Instr} {s : State} (hop : i.op = .digest) (hl : 16 ≤ i.len)
    (hph : phaseOf i.alg s ≠ .faulted) : commandCheck i s = none := by
  rw [commandCheck_of_digest hop]
  rcases digestCheck_cases i.alg i.len s with ⟨-, -, hc⟩ | ⟨-, hlt, -⟩ | ⟨hf, -⟩
  · exact hc
  · omega
  · exact absurd hf hph

/-- A `DIGEST` with room after `FINALIZE` answers the digest. -/
theorem commandResponse_digest_finalized {i : Instr} {s : State} (hop : i.op = .digest) (hl : 16 ≤ i.len)
    (hph : phaseOf i.alg s = .finalized) : commandResponse i s = ⟨.ok, .bytes (digestBytesOf i.alg s)⟩ := by
  rw [commandResponse_of_pass (commandCheck_digest_room hop hl (by simp [hph]))]
  simp only [commandData, hop, hph, ↓reduceIte]

/-- A `DIGEST` with room before `FINALIZE` answers sixteen unspecified bytes. -/
theorem commandResponse_digest_absorbing {i : Instr} {s : State} (hop : i.op = .digest) (hl : 16 ≤ i.len)
    (hph : phaseOf i.alg s = .absorbing) :
    commandResponse i s = ⟨.ok, .bytes (unspecifiedBytes i.alg (drawsOf i.alg s))⟩ := by
  rw [commandResponse_of_pass (commandCheck_digest_room hop hl (by simp [hph]))]
  simp [commandData, hop, hph]

/-- Settles O36: the table is read off the check of the command, and the data off the answer of `DIGEST`. -/
theorem commandsFollowTheLifecycleTable : Obligations.CommandsFollowTheLifecycleTable := by
  refine fun i s => ⟨commandResult i s, commandResponse i s, exec_eq_commandResult i s, commandResult_responses i s,
    commandResult_lifecycle i s, fun hop hl hph => ?_, fun hop hl hph => ?_⟩
  · rw [commandResponse_digest_finalized hop hl hph]
    rfl
  · rw [commandResponse_digest_absorbing hop hl hph]
    exact ⟨_, unspecifiedBytes_length i.alg _, rfl⟩

/-! ### Errors (R71) -/

/-- Everything a command can raise. -/
theorem commandCheck_eq_some {i : Instr} {s : State} {c : ErrorCause} (h : commandCheck i s = some c) :
    (phaseOf i.alg s = .absorbing ∧ blockSize i.alg ≤ pendingLengthOf i.alg s ∧ c = .pendingOverflow i.alg) ∨
    c = .smallBuffer ∨ (phaseOf i.alg s = .faulted ∧ c = .engineFaulted) ∨ c = .alreadyFinalized := by
  cases hop : i.op with
  | reset | blocksize | digestbits =>
    simp only [commandCheck, hop] at h
    cases h
  | feed | finalize =>
    rw [commandCheck_of_absorbs (by simp [hop])] at h
    rcases absorbCheck_cases i.alg s with ⟨-, -, hc⟩ | ⟨hph, hp, hc⟩ | ⟨-, hc⟩ | ⟨hph, hc⟩ <;> cases hc.symm.trans h
    · exact .inl ⟨hph, hp, rfl⟩
    · exact .inr (.inr (.inr rfl))
    · exact .inr (.inr (.inl ⟨hph, rfl⟩))
  | digest =>
    rw [commandCheck_of_digest hop] at h
    rcases digestCheck_cases i.alg i.len s with ⟨-, -, hc⟩ | ⟨-, -, hc⟩ | ⟨hph, hc⟩ <;> cases hc.symm.trans h
    · exact .inr (.inl rfl)
    · exact .inr (.inr (.inl ⟨hph, rfl⟩))

theorem setPhase_e2 (a : Algorithm) (p : Phase) (s : State) :
    (setPhase a p s).e2 = if a = .md2 then { s.e2 with phase := p } else s.e2 := by
  cases a <;> rfl

theorem setPhase_e4 (a : Algorithm) (p : Phase) (s : State) :
    (setPhase a p s).e4 = if a = .md4 then { s.e4 with phase := p } else s.e4 := by
  cases a <;> rfl

/-- Settles O37: of the errors a command can raise, only the pending length out of range has an effect. -/
theorem errorsChangeNothingButTheFaultedPhase : Obligations.ErrorsChangeNothingButTheFaultedPhase := by
  refine fun i s => ⟨commandResult i s, commandResponse i s, exec_eq_commandResult i s, commandResult_responses i s,
    fun herr => ?_⟩
  cases hc : commandCheck i s with
  | none => exact absurd (by rw [commandResponse_of_pass hc]) herr
  | some c =>
    rw [commandResponse_of_raise hc, commandResult_of_raise hc]
    rcases commandCheck_eq_some hc with ⟨hph, hp, rfl⟩ | rfl | ⟨hph, rfl⟩ | rfl
    · simp [ErrorCause.status, hph, hp, setPhase_e2, setPhase_e4]
    · simp [ErrorCause.status]
    · simp [ErrorCause.status, hph]
    · simp [ErrorCause.status]

end Sys2Proof.Machine
end

section
/-! PROOFS. Accepted `FEED` commands: the input buffer after one of them, and that chunk boundaries do not matter
(40_interface.md R63, R64, R73). -/

namespace Sys2Proof.Machine

/-! ### An accepted `FEED` -/

theorem commandResult_feed {a : Algorithm} {s : State} (h : absorbCheck a s = none) (p : List Byte) :
    commandResult (feedCommand a p) s = respond .ok .none (feedEngine a p s) := by
  have hc : commandCheck (feedCommand a p) s = none := by
    cases a <;> exact h
  rw [commandResult_of_pass hc]
  cases a <;> rfl

theorem feedEngine_append (a : Algorithm) (p q : List Byte) (s : State) :
    feedEngine a (p ++ q) s = feedEngine a q (feedEngine a p s) := by
  cases a with
  | md2 => simp only [feedEngine, Md2Engine.absorbAll_append]
  | md4 => simp only [feedEngine, Md4Engine.absorbAll_append]

theorem feedEngine_respond (a : Algorithm) (p : List Byte) (st : Status) (d : ResponseData) (s : State) :
    feedEngine a p (respond st d s) = respond st d (feedEngine a p s) := by
  cases a <;> rfl

theorem feedEngine_pendingLengthOf {a : Algorithm} {s : State} (h : pendingLengthOf a s < blockSize a)
    (p : List Byte) :
    pendingLengthOf a (feedEngine a p s) = (pendingLengthOf a s + p.length) % blockSize a := by
  cases a with
  | md2 => exact s.e2.absorbAll_pendingLength p h
  | md4 => exact s.e4.absorbAll_pendingLength p h

theorem absorbCheck_respond (a : Algorithm) (st : Status) (d : ResponseData) (s : State) :
    absorbCheck a (respond st d s) = absorbCheck a s :=
  absorbCheck_congr (respond_view st d a s)

/-- After an accepted `FEED` the engine accepts the next. -/
theorem absorbCheck_feedEngine {a : Algorithm} {s : State} (h : absorbCheck a s = none) (p : List Byte) :
    absorbCheck a (feedEngine a p s) = none := by
  obtain ⟨hph, hp⟩ := (absorbCheck_eq_none_iff a s).mp h
  refine (absorbCheck_eq_none_iff a _).mpr ⟨by rw [feedEngine_phaseOf, hph], ?_⟩
  rw [feedEngine_pendingLengthOf hp]
  exact Nat.mod_lt _ (Nat.zero_lt_of_lt hp)

/-! ### The input buffer (R64) -/

/-- A block filled with a payload from `start` on, in the two clauses of the obligations. -/
theorem reads_of_fill {n : Nat} {new old : Vector Byte n} {start : Nat} {p : List Byte}
    (h : ∀ i, arrayRead new i =
      if start ≤ i ∧ i < start + p.length then p.getD (i - start) 0 else arrayRead old i) :
    (∀ k < p.length, arrayRead new (start + k) = p.getD k 0) ∧
    ∀ i, (i < start ∨ start + p.length ≤ i) → arrayRead new i = arrayRead old i := by
  refine ⟨fun k hk => ?_, fun i hi => ?_⟩
  · rw [h, if_pos (by omega), Nat.add_sub_cancel_left]
  · rw [h, if_neg (by omega)]

/-- As `Md2Engine.absorbAll_within`, for a payload that is counted. -/
theorem Md4Engine.absorbAll_within (e : Md4Engine) (p : List Byte) (h : e.pendingLength + p.length < 64) :
    (e.absorbAll p).words = e.words ∧
    ∀ i, arrayRead (e.absorbAll p).pendingBlock i =
      if e.pendingLength ≤ i ∧ i < e.pendingLength + p.length then p.getD (i - e.pendingLength) 0
      else arrayRead e.pendingBlock i := by
  rw [Md4Engine.absorbAll_eq]
  exact e.padAbsorbAll_within p h

/-- Settles O22: the engine absorbs the payload, and a payload that does not fill the block only fills the buffer. -/
theorem feedMd2BufferEffect : Obligations.FeedMd2BufferEffect := by
  intro p s hph hp
  refine ⟨_, exec_eq_commandResult (.feedMd2 p) s, ?_⟩
  rw [show Instr.feedMd2 p = feedCommand .md2 p from rfl,
    commandResult_feed ((absorbCheck_eq_none_iff .md2 s).mpr ⟨hph, hp⟩)]
  refine ⟨s.e2.absorbAll_pendingLength p hp, (s.e2.absorbAll_phase p).trans hph, rfl, fun hw => ?_, ?_⟩
  · obtain ⟨hx, hc, hpb⟩ := s.e2.absorbAll_within p hw
    exact ⟨hx, hc, reads_of_fill hpb⟩
  · rintro rfl
    rfl

/-- Settles O33: as O22, and the bit count grows by eight for each byte. -/
theorem feedMd4BufferEffect : Obligations.FeedMd4BufferEffect := by
  intro p s hph hp
  refine ⟨_, exec_eq_commandResult (.feedMd4 p) s, ?_⟩
  rw [show Instr.feedMd4 p = feedCommand .md4 p from rfl,
    commandResult_feed ((absorbCheck_eq_none_iff .md4 s).mpr ⟨hph, hp⟩)]
  refine ⟨s.e4.absorbAll_pendingLength p hp, (s.e4.absorbAll_phase p).trans hph, rfl, ?_, fun hw => ?_, ?_⟩
  · have hbits := congrArg BitVec.toNat (s.e4.absorbAll_totalBitLength p)
    rwa [BitVec.toNat_add, BitVec.toNat_ofNat, Nat.add_mod_mod] at hbits
  · obtain ⟨hx, hpb⟩ := s.e4.absorbAll_within p hw
    exact ⟨hx, reads_of_fill hpb⟩
  · rintro rfl
    rfl

/-! ### Chunks (R73) -/

/-- Accepted chunks are absorbed as their concatenation is, each answered `OK`. -/
theorem runResult_feeds {a : Algorithm} (chunks : List (List Byte)) {s : State} (h : absorbCheck a s = none) :
    runResult (chunks.map (feedCommand a)) s =
      { feedEngine a chunks.flatten s with
        responses := s.responses ++ List.replicate chunks.length ⟨.ok, .none⟩ } := by
  induction chunks generalizing s with
  | nil => cases a <;> simp [feedEngine]
  | cons p chunks ih =>
    have hnext : absorbCheck a (respond .ok .none (feedEngine a p s)) = none := by
      rw [absorbCheck_respond, absorbCheck_feedEngine h p]
    rw [List.map_cons, runResult_cons, commandResult_feed h p, ih hnext, feedEngine_respond, List.flatten_cons,
      feedEngine_append, List.length_cons, List.replicate_succ]
    simp [respond]

/-- The chunks one after the other, and their concatenation at once. -/
theorem feeds_and_one_feed {a : Algorithm} (chunks : List (List Byte)) {s : State} (h : absorbCheck a s = none) :
    runCommands (chunks.map (feedCommand a)) s = .next
      { feedEngine a chunks.flatten s with
        responses := s.responses ++ List.replicate chunks.length ⟨.ok, .none⟩ } ∧
    exec (feedCommand a chunks.flatten) s = .next (respond .ok .none (feedEngine a chunks.flatten s)) := by
  rw [runCommands_eq_runResult, runResult_feeds chunks h, exec_eq_commandResult, commandResult_feed h]
  exact ⟨rfl, rfl⟩

/-- Settles O41: either way the engine has absorbed the concatenation. -/
theorem chunkBoundariesDoNotMatter : Obligations.ChunkBoundariesDoNotMatter := by
  refine fun chunks s => ⟨fun hph hp => ?_, fun hph hp => ?_⟩
  · obtain ⟨ht, hu⟩ := feeds_and_one_feed chunks ((absorbCheck_eq_none_iff .md2 s).mpr ⟨hph, hp⟩)
    exact ⟨_, _, ht, hu, rfl, rfl⟩
  · obtain ⟨ht, hu⟩ := feeds_and_one_feed chunks ((absorbCheck_eq_none_iff .md4 s).mpr ⟨hph, hp⟩)
    exact ⟨_, _, ht, hu, rfl, rfl⟩

end Sys2Proof.Machine
end

section
/-! PROOFS. Commands to the two engines interleaved, and whole computations among other commands (40_interface.md R60,
R76). -/

namespace Sys2Proof.Machine

/-! ### Interleaving (R60) -/

theorem commandResult_view_of_ne {i : Instr} {b : Algorithm} (hb : b ≠ i.alg) (s : State) :
    (commandResult i s).view b = s.view b :=
  exec_view_of_ne (exec_eq_commandResult i s) hb

theorem commandResult_view_congr {i : Instr} {s s' : State} (hv : s.view i.alg = s'.view i.alg) :
    (commandResult i s).view i.alg = (commandResult i s').view i.alg := by
  obtain ⟨t, t', r, ht, ht', -, hown⟩ := exec_two_states i s s'
  cases (exec_eq_commandResult i s).symm.trans ht
  cases (exec_eq_commandResult i s').symm.trans ht'
  exact (hown hv).1

/-- An engine is after a run as after the commands to it alone. -/
theorem runResult_view_filter (a : Algorithm) (is : List Instr) {s s' : State} (hv : s.view a = s'.view a) :
    (runResult is s).view a = (runResult (is.filter fun i => i.alg = a) s').view a := by
  induction is generalizing s s' with
  | nil => exact hv
  | cons i is ih =>
    by_cases ha : i.alg = a
    · subst ha
      rw [List.filter_cons_of_pos (by simp)]
      exact ih (commandResult_view_congr hv)
    · rw [List.filter_cons_of_neg (by simpa using ha)]
      exact ih ((commandResult_view_of_ne (Ne.symm ha) s).trans hv)

/-- The commands to one engine leave the other as it was. -/
theorem runResult_filter_view_of_ne {a b : Algorithm} (hab : a ≠ b) (is : List Instr) (s : State) :
    (runResult (is.filter fun i => i.alg = a) s).view b = s.view b := by
  have hnone : (is.filter fun i => i.alg = a).filter (fun i => i.alg = b) = [] := by
    simp only [List.filter_filter, List.filter_eq_nil_iff, Bool.and_eq_true, decide_eq_true_eq]
    rintro i - ⟨rfl, rfl⟩
    exact hab rfl
  rw [runResult_view_filter b _ rfl, hnone, runResult_nil]

/-- Settles O43, engine by engine. -/
theorem interleavingDoesNotMatter : Obligations.InterleavingDoesNotMatter := by
  refine fun is s => ⟨_, _, _, runCommands_eq_runResult _ s, runCommands_eq_runResult _ s,
    runCommands_eq_runResult _ s, ?_, ?_, ?_, ?_⟩
  · exact (view_md2_eq_iff.mp (runResult_view_filter .md2 is rfl)).1
  · exact (view_md4_eq_iff.mp (runResult_view_filter .md4 is rfl)).1
  · exact (view_md4_eq_iff.mp (runResult_filter_view_of_ne (by decide) is s)).1
  · exact (view_md2_eq_iff.mp (runResult_filter_view_of_ne (by decide) is s)).1

/-! ### The engine of the given name -/

/-- The state of either engine. -/
abbrev Engine := Md2Engine ⊕ Md4Engine

/-- The engine of the given name. -/
def State.engine (a : Algorithm) (s : State) : Engine :=
  match a with
  | .md2 => .inl s.e2
  | .md4 => .inr s.e4

theorem engine_of_view {a : Algorithm} {s s' : State} (h : s.view a = s'.view a) : s.engine a = s'.engine a := by
  cases a with
  | md2 => exact congrArg Sum.inl (view_md2_eq_iff.mp h).1
  | md4 => exact congrArg Sum.inr (view_md4_eq_iff.mp h).1

@[simp] theorem respond_engine (st : Status) (d : ResponseData) (a : Algorithm) (s : State) :
    (respond st d s).engine a = s.engine a :=
  engine_of_view (respond_view st d a s)

@[simp] theorem drawBytes_engine (a b : Algorithm) (s : State) : (drawBytes a s).engine b = s.engine b := by
  cases a <;> cases b <;> rfl

/-- The operations that leave both engines as they are. -/
def Op.reads (op : Op) : Prop := op = .digest ∨ op = .blocksize ∨ op = .digestbits

theorem commandResult_engine_of_reads {i : Instr} (h : Op.reads i.op) (a : Algorithm) (s : State) :
    (commandResult i s).engine a = s.engine a := by
  rcases h with hop | hop | hop
  · have hcheck := commandCheck_of_digest hop s
    rcases digestCheck_cases i.alg i.len s with ⟨-, -, hc⟩ | ⟨-, -, hc⟩ | ⟨-, hc⟩ <;> rw [← hcheck] at hc
    · rw [commandResult_of_pass hc, respond_engine]
      simp only [commandEffect, hop]
      split <;> simp
    · rw [commandResult_of_raise hc, raise_smallBuffer, respond_engine]
    · rw [commandResult_of_raise hc, raise_engineFaulted, respond_engine]
  all_goals
    have hc : commandCheck i s = none := by simp only [commandCheck, hop]
    rw [commandResult_of_pass hc, respond_engine]
    simp only [commandEffect, hop]

/-- A command that only reads an engine, or is not addressed to it, leaves it as it is. -/
theorem commandResult_engine {i : Instr} {a : Algorithm} (h : i.alg = a → Op.reads i.op) (s : State) :
    (commandResult i s).engine a = s.engine a := by
  by_cases ha : i.alg = a
  · exact commandResult_engine_of_reads (h ha) a s
  · exact engine_of_view (commandResult_view_of_ne (Ne.symm ha) s)

theorem runResult_engine {is : List Instr} {a : Algorithm} (h : ∀ i ∈ is, i.alg = a → Op.reads i.op) (s : State) :
    (runResult is s).engine a = s.engine a := by
  induction is generalizing s with
  | nil => rfl
  | cons i is ih =>
    obtain ⟨hi, his⟩ := List.forall_mem_cons.mp h
    rw [runResult_cons, ih his, commandResult_engine hi]

/-! ### What an engine holds along a computation -/

/-- The engine absorbs, and has absorbed the message since its reset, with its bits counted. -/
def Engine.HasAbsorbed (m : List Byte) : Engine → Prop
  | .inl e => e.phase = .absorbing ∧ e.Absorbed m
  | .inr e => e.phase = .absorbing ∧ e.Absorbed m ∧ e.totalBitLength = BitVec.ofNat 64 (8 * m.length)

/-- The engine is finalized with the given digest. -/
def Engine.HoldsDigest (d : List Byte) : Engine → Prop
  | .inl e => e.phase = .finalized ∧ e.digestBytes = d
  | .inr e => e.phase = .finalized ∧ e.digestBytes = d

theorem hasAbsorbed_resetEngine (a : Algorithm) (s : State) : ((resetEngine a s).engine a).HasAbsorbed [] := by
  cases a with
  | md2 => exact ⟨rfl, Md2Engine.absorbed_reset⟩
  | md4 => exact ⟨rfl, Md4Engine.absorbed_reset, rfl⟩

theorem hasAbsorbed_feedEngine {a : Algorithm} {m : List Byte} {s : State} (h : (s.engine a).HasAbsorbed m)
    (p : List Byte) : ((feedEngine a p s).engine a).HasAbsorbed (m ++ p) := by
  cases a with
  | md2 =>
    obtain ⟨hph, hm⟩ := h
    exact ⟨(s.e2.absorbAll_phase p).trans hph, hm.absorbAll p⟩
  | md4 =>
    obtain ⟨hph, hm, hb⟩ := h
    refine ⟨(s.e4.absorbAll_phase p).trans hph, hm.absorbAll p, (s.e4.absorbAll_totalBitLength p).trans ?_⟩
    rw [hb, ← BitVec.ofNat_add, ← Nat.mul_add, List.length_append]

theorem holdsDigest_finalizeEngine {a : Algorithm} {m : List Byte} {s : State} (h : (s.engine a).HasAbsorbed m) :
    ((finalizeEngine a s).engine a).HoldsDigest (digestOf a m) := by
  cases a with
  | md2 =>
    obtain ⟨-, hm⟩ := h
    exact ⟨s.e2.finalize_phase, hm.finalize_digestBytes⟩
  | md4 =>
    obtain ⟨-, hm, hb⟩ := h
    exact ⟨s.e4.finalize_phase, hm.finalize_digestBytes hb⟩

/-- An engine that has absorbed a message accepts more. -/
theorem absorbCheck_of_hasAbsorbed {a : Algorithm} {m : List Byte} {s : State} (h : (s.engine a).HasAbsorbed m) :
    absorbCheck a s = none := by
  rw [absorbCheck_eq_none_iff]
  cases a with
  | md2 =>
    obtain ⟨hph, hm⟩ := h
    exact ⟨hph, hm.pendingLength.trans_lt (Nat.mod_lt _ (by decide))⟩
  | md4 =>
    obtain ⟨hph, hm, -⟩ := h
    exact ⟨hph, hm.pendingLength.trans_lt (Nat.mod_lt _ (by decide))⟩

theorem holdsDigest_iff {a : Algorithm} {d : List Byte} {s : State} :
    (s.engine a).HoldsDigest d ↔ phaseOf a s = .finalized ∧ digestBytesOf a s = d := by
  cases a <;> rfl

/-! ### The commands of a computation (R76) -/

@[simp] theorem commandOf_op (op : Op) (a : Algorithm) (p : List Byte) (n : Nat) : (commandOf op a p n).op = op := by
  cases op <;> cases a <;> rfl

@[simp] theorem commandOf_alg (op : Op) (a : Algorithm) (p : List Byte) (n : Nat) : (commandOf op a p n).alg = a := by
  cases op <;> cases a <;> rfl

theorem commandOf_digest_len (a : Algorithm) (p : List Byte) (n : Nat) : (commandOf .digest a p n).len = n := by
  cases a <;> rfl

theorem eq_feedCommand {i : Instr} (h : i.op = .feed) : i = feedCommand i.alg i.payload := by
  cases i with
  | feedMd2 p | feedMd4 p => rfl
  | _ => cases h

theorem messageOf_cons (a : Algorithm) (i : Instr) (is : List Instr) :
    messageOf a (i :: is) = messageOf a [i] ++ messageOf a is := by
  simp [messageOf]

theorem messageOf_feed {a : Algorithm} {i : Instr} (ha : i.alg = a) (hop : i.op = .feed) :
    messageOf a [i] = i.payload := by
  simp [messageOf, ha, hop]

theorem messageOf_other {a : Algorithm} {i : Instr} (h : i.alg = a → i.op ≠ .feed) : messageOf a [i] = [] := by
  simp only [messageOf, List.flatMap_singleton, ite_eq_right_iff, and_imp]
  exact fun ha hop => absurd hop (h ha)

/-- `RESET` starts a computation from any state. -/
theorem hasAbsorbed_after_reset (a : Algorithm) (s : State) :
    ((commandResult (commandOf .reset a [] 0) s).engine a).HasAbsorbed [] := by
  have hc : commandCheck (commandOf .reset a [] 0) s = none := by simp only [commandCheck, commandOf_op]
  rw [commandResult_of_pass hc, respond_engine]
  simp only [commandEffect, commandOf_op, commandOf_alg]
  exact hasAbsorbed_resetEngine a s

/-- A command that is neither `RESET` nor `FINALIZE` of the engine adds its part of the message. -/
theorem hasAbsorbed_after_command {a : Algorithm} {m : List Byte} {i : Instr} {s : State}
    (h : (s.engine a).HasAbsorbed m) (hi : i.alg = a → i.op ≠ .reset ∧ i.op ≠ .finalize) :
    ((commandResult i s).engine a).HasAbsorbed (m ++ messageOf a [i]) := by
  by_cases hfeed : i.alg = a ∧ i.op = .feed
  · obtain ⟨rfl, hop⟩ := hfeed
    rw [messageOf_feed rfl hop]
    have hresult : commandResult i s = respond .ok .none (feedEngine i.alg i.payload s) := by
      rw [← commandResult_feed (absorbCheck_of_hasAbsorbed h), ← eq_feedCommand hop]
    rw [hresult, respond_engine]
    exact hasAbsorbed_feedEngine h i.payload
  · have hreads : i.alg = a → Op.reads i.op := fun ha => by
      obtain ⟨hr, hf⟩ := hi ha
      cases hop : i.op with
      | reset => exact absurd hop hr
      | finalize => exact absurd hop hf
      | feed => exact absurd ⟨ha, hop⟩ hfeed
      | digest | blocksize | digestbits => simp [Op.reads]
    rw [messageOf_other fun ha hop => hfeed ⟨ha, hop⟩, List.append_nil, commandResult_engine hreads]
    exact h

theorem hasAbsorbed_after_run {a : Algorithm} {m : List Byte} {is : List Instr} {s : State}
    (h : (s.engine a).HasAbsorbed m) (hi : ∀ i ∈ is, i.alg = a → i.op ≠ .reset ∧ i.op ≠ .finalize) :
    ((runResult is s).engine a).HasAbsorbed (m ++ messageOf a is) := by
  induction is generalizing m s with
  | nil => rwa [show messageOf a [] = [] from rfl, List.append_nil]
  | cons i is ih =>
    obtain ⟨hi, his⟩ := List.forall_mem_cons.mp hi
    rw [runResult_cons, messageOf_cons, ← List.append_assoc]
    exact ih (hasAbsorbed_after_command h hi) his

/-- `FINALIZE` leaves the digest of the message. -/
theorem holdsDigest_after_finalize {a : Algorithm} {m : List Byte} {s : State} (h : (s.engine a).HasAbsorbed m) :
    ((commandResult (commandOf .finalize a [] 0) s).engine a).HoldsDigest (digestOf a m) := by
  have hc : commandCheck (commandOf .finalize a [] 0) s = none := by
    rw [commandCheck_of_absorbs (by simp), commandOf_alg, absorbCheck_of_hasAbsorbed h]
  rw [commandResult_of_pass hc, respond_engine]
  simp only [commandEffect, commandOf_op, commandOf_alg]
  exact holdsDigest_finalizeEngine h

/-- `DIGEST` with room answers the digest. -/
theorem commandResponse_of_holdsDigest {a : Algorithm} {d : List Byte} {s : State} {cap : Nat} (hcap : 16 ≤ cap)
    (h : (s.engine a).HoldsDigest d) : commandResponse (commandOf .digest a [] cap) s = ⟨.ok, .bytes d⟩ := by
  obtain ⟨hph, hd⟩ := holdsDigest_iff.mp h
  rw [commandResponse_digest_finalized (by simp) (by rwa [commandOf_digest_len]) (by rwa [commandOf_alg]),
    commandOf_alg, hd]

/-- Settles O50: `RESET` starts the computation, the feeding commands build the message, `FINALIZE` leaves its digest,
and the reading commands leave the engine as it is. -/
theorem everyComputationAnswersItsDigest : Obligations.EveryComputationAnswersItsDigest := by
  intro a feeding reading cap s hcap hfeeding hreading
  have habsorbed := hasAbsorbed_after_run (hasAbsorbed_after_reset a s) hfeeding
  have hdigest := holdsDigest_after_finalize habsorbed
  rw [← runResult_engine hreading, List.nil_append] at hdigest
  obtain ⟨rs, hrs⟩ := runResult_responses
    (commandOf .reset a [] 0 :: feeding ++ commandOf .finalize a [] 0 :: reading) s
  refine ⟨_, rs, runCommands_eq_runResult _ s, ?_⟩
  rw [runResult_append, runResult_cons, runResult_nil, commandResult_responses, hrs, runResult_append]
  exact congrArg (fun r => s.responses ++ rs ++ [r]) (commandResponse_of_holdsDigest hcap hdigest)

end Sys2Proof.Machine
end

section
/-! PROOFS. The substitution table and the micro-operations of the MD2 engine (41_md2_engine.md R80 to R84). -/

namespace Sys2Proof.Machine

/-! ### The substitution table (R80) -/

/-- The place of a value in R80's table. -/
def sBoxInverse (v : Byte) : Byte :=
  let row := sTable.findIdx (·.contains v.toNat)
  BitVec.ofNat 8 (16 * row + (sTable.getD row []).idxOf v.toNat)

/-- Each value is found in the table at the place its inverse names, row by row of sixteen values. -/
theorem sBox_sBoxInverse_row : ∀ row < 16, ∀ col < 16,
    sBox (sBoxInverse (BitVec.ofNat 8 (16 * row + col))) = BitVec.ofNat 8 (16 * row + col) := by
  decide

theorem sBox_sBoxInverse (v : Byte) : sBox (sBoxInverse v) = v := by
  have hv := v.isLt
  have h := sBox_sBoxInverse_row (v.toNat / 16) (by omega) (v.toNat % 16) (by omega)
  rwa [Nat.div_add_mod, BitVec.ofNat_toNat, BitVec.setWidth_eq] at h

/-- A table of 256 bytes in which every byte occurs holds none twice. -/
theorem sBox_injective : Function.Injective sBox :=
  Finite.injective_iff_surjective.mpr fun v => ⟨sBoxInverse v, sBox_sBoxInverse v⟩

/-- Settles O16: the inverse gives the place of each value, and there is no second one; the spot values are read off
the table. -/
theorem substitutionTableIsAPermutation : Obligations.SubstitutionTableIsAPermutation :=
  ⟨fun v => ⟨sBoxInverse v, sBox_sBoxInverse v, fun _ h => sBox_injective (h.trans (sBox_sBoxInverse v).symm)⟩,
    rfl, rfl, rfl, rfl, rfl, rfl⟩

/-! ### `COMPRESS2` (R81) -/

theorem arrayRead_compress2Load_hash (x : Vector Byte 48) (pb : Vector Byte 16) {i : Nat} (h : i < 16) :
    arrayRead (compress2Load x pb) i = arrayRead x i := by
  rw [arrayRead_compress2Load, if_pos h]

theorem arrayRead_compress2Load_block (x : Vector Byte 48) (pb : Vector Byte 16) {i : Nat} (h : i < 16) :
    arrayRead (compress2Load x pb) (16 + i) = arrayRead pb i := by
  rw [arrayRead_compress2Load, if_neg (by omega), if_pos (by omega), Nat.add_sub_cancel_left]

theorem arrayRead_compress2Load_xor (x : Vector Byte 48) (pb : Vector Byte 16) {i : Nat} (h : i < 16) :
    arrayRead (compress2Load x pb) (32 + i) = arrayRead x i ^^^ arrayRead pb i := by
  rw [arrayRead_compress2Load, if_neg (by omega), if_neg (by omega), if_pos (by omega), Nat.add_sub_cancel_left]

/-- The bytes and the carry before round `j`, from `X` as the loading loops leave it. -/
def compress2Before (x : Vector Byte 48) (j : Nat) : List Byte × Byte :=
  (List.range j).foldl compress2Round (x.toList, 0)

theorem compress2Before_succ (x : Vector Byte 48) (j : Nat) :
    compress2Before x (j + 1) = compress2Round (compress2Before x j) j := by
  rw [compress2Before, List.range_succ, List.foldl_append]
  rfl

theorem compress2Before_length (x : Vector Byte 48) (j : Nat) : (compress2Before x j).1.length = 48 := by
  induction j with
  | zero => exact x.length_toList
  | succ j ih => rw [compress2Before_succ, compress2Round_length, ih]

theorem compress2Round_getD (st : List Byte × Byte) (j : Nat) {i : Nat} (h : i < st.1.length) :
    (compress2Round st j).1.getD i 0 =
      st.1.getD i 0 ^^^ sBox (if i = 0 then st.2 else (compress2Round st j).1.getD (i - 1) 0) :=
  compress2Bytes_getD st.1 st.2 i h

/-- The next carry is made of the last byte written, where there is one. -/
theorem compress2Round_carry (st : List Byte × Byte) (j : Nat) {n : Nat} (h : st.1.length = n + 1) :
    (compress2Round st j).2 = (compress2Round st j).1.getD n 0 + BitVec.ofNat 8 j := by
  have hlast : (compress2Bytes st.1 st.2).1.getLastD st.2 = (compress2Bytes st.1 st.2).1.getD n 0 := by
    simp [List.getLastD_eq_getLast?, List.getLast?_eq_getElem?, h]
  exact congrArg (· + BitVec.ofNat 8 j) ((compress2Bytes_carry st.1 st.2).trans hlast)

/-- Byte `i` of `X` before round `j`. -/
def compress2Row (x : Vector Byte 48) (j i : Nat) : Byte := (compress2Before x j).1.getD i 0

/-- The carry before round `j`. -/
def compress2Carry (x : Vector Byte 48) (j : Nat) : Byte := (compress2Before x j).2

theorem compress2Row_zero (x : Vector Byte 48) {i : Nat} (h : i < 48) : compress2Row x 0 i = arrayRead x i := by
  simp [compress2Row, compress2Before, arrayRead_eq_getElem x h, h]

theorem compress2Row_succ (x : Vector Byte 48) (j : Nat) {i : Nat} (h : i < 48) :
    compress2Row x (j + 1) i =
      compress2Row x j i ^^^ sBox (if i = 0 then compress2Carry x j else compress2Row x (j + 1) (i - 1)) := by
  simp only [compress2Row, compress2Carry, compress2Before_succ]
  exact compress2Round_getD _ j (by rwa [compress2Before_length])

theorem compress2Carry_succ (x : Vector Byte 48) (j : Nat) :
    compress2Carry x (j + 1) = compress2Row x (j + 1) 47 + BitVec.ofNat 8 j := by
  simp only [compress2Row, compress2Carry, compress2Before_succ]
  exact compress2Round_carry _ j (compress2Before_length x j)

theorem arrayRead_compress2_eq_row (x : Vector Byte 48) (pb : Vector Byte 16) {i : Nat} (h : i < 48) :
    arrayRead (compress2 x pb) i = compress2Row (compress2Load x pb) 18 i :=
  arrayRead_compress2 x pb i h

/-- Settles O17: row 0 is read off the loading loops, and the recursion of the rows and carries off one round. -/
theorem compress2FollowsItsRounds : Obligations.Compress2FollowsItsRounds := by
  refine fun e => ⟨⟨compress2Row (compress2Load e.transformBuffer e.pendingBlock),
    compress2Carry (compress2Load e.transformBuffer e.pendingBlock), fun i hi => ?_, fun i hi => ?_, fun i hi => ?_,
    rfl, fun j _ i hi => compress2Row_succ _ j hi, fun j _ => compress2Carry_succ _ j,
    fun i hi => arrayRead_compress2_eq_row _ _ hi⟩, rfl⟩
  · rw [compress2Row_zero _ (by omega), arrayRead_compress2Load_hash _ _ hi]
  · rw [compress2Row_zero _ (by omega), arrayRead_compress2Load_block _ _ hi]
  · rw [compress2Row_zero _ (by omega), compress2Row_zero _ (by omega), compress2Row_zero _ (by omega),
      arrayRead_compress2Load_hash _ _ hi, arrayRead_compress2Load_block _ _ hi, arrayRead_compress2Load_xor _ _ hi]

/-! ### `CHECKSUM2`, `BLOCK2` and `ABSORB2` (R82 to R84) -/

/-- Settles O18: the bytes are those of `arrayRead_checksum2`, and `CHECKSUM2` writes `C` alone. -/
theorem checksum2FollowsItsBytes : Obligations.Checksum2FollowsItsBytes := by
  refine fun e => ⟨fun i hi => ?_, rfl⟩
  rw [Md2Engine.updateChecksum_checksum]
  exact arrayRead_checksum2 e.checksum e.pendingBlock i hi

/-- Neither of `COMPRESS2` and `CHECKSUM2` reads what the other writes. -/
theorem Md2Engine.compress_updateChecksum_comm (e : Md2Engine) :
    e.compress.updateChecksum = e.updateChecksum.compress := by
  simp only [Md2Engine.compress, Md2Engine.updateChecksum]

/-- Settles O19. -/
theorem block2IsTheSameInEitherOrder : Obligations.Block2IsTheSameInEitherOrder :=
  fun e => ⟨rfl, e.compress_updateChecksum_comm⟩

/-- Settles O20: within the block the byte is only stored; the sixteenth has the block processed. -/
theorem absorb2TakesOneByte : Obligations.Absorb2TakesOneByte := by
  refine fun e b h => ⟨fun hlt => e.absorb_within b (by omega), fun hfull => ?_, ?_⟩
  · rw [e.absorb_full b (by omega), hfull]
    rfl
  · rw [e.absorb_pendingLength b (by omega)]
    omega

end Sys2Proof.Machine
end

section
/-! PROOFS. What each command answers and changes in every phase of its engine, and the six commands of the MD2 engine
(41_md2_engine.md R85 to R90). -/

namespace Sys2Proof.Machine

/-! ### `FEED` and `FINALIZE` in each phase (40_interface.md R61, 60_exceptions.md R125) -/

theorem exec_of_raise {i : Instr} {s : State} {c : ErrorCause} (h : commandCheck i s = some c) :
    exec i s = .next (raise c s) := by
  rw [exec_eq_commandResult, commandResult_of_raise h]

theorem exec_of_pass {i : Instr} {s : State} (h : commandCheck i s = none) :
    exec i s = .next (respond .ok (commandData i s) (commandEffect i s)) := by
  rw [exec_eq_commandResult, commandResult_of_pass h]

section
variable {i : Instr} {s : State} (hop : i.op = .feed ∨ i.op = .finalize)
include hop

theorem exec_absorbs_of_faulted (h : phaseOf i.alg s = .faulted) :
    exec i s = .next (respond .invalidState .none s) :=
  exec_of_raise ((commandCheck_of_absorbs hop s).trans (absorbCheck_of_faulted h))

theorem exec_absorbs_of_finalized (h : phaseOf i.alg s = .finalized) :
    exec i s = .next (respond .finalized .none s) :=
  exec_of_raise ((commandCheck_of_absorbs hop s).trans (absorbCheck_of_finalized h))

theorem exec_absorbs_of_overfull (h : phaseOf i.alg s = .absorbing) (hp : blockSize i.alg ≤ pendingLengthOf i.alg s) :
    exec i s = .next (respond .invalidState .none (setPhase i.alg .faulted s)) :=
  exec_of_raise ((commandCheck_of_absorbs hop s).trans (absorbCheck_of_overfull h hp))

theorem exec_absorbs_of_accepted (h : phaseOf i.alg s = .absorbing) (hp : pendingLengthOf i.alg s < blockSize i.alg) :
    exec i s = .next (respond .ok .none (commandEffect i s)) := by
  have hdata : commandData i s = .none := by rcases hop with hop | hop <;> simp only [commandData, hop]
  have hcheck := (commandCheck_of_absorbs hop s).trans ((absorbCheck_eq_none_iff i.alg s).mpr ⟨h, hp⟩)
  rw [exec_of_pass hcheck, hdata]

end

/-! ### `DIGEST` in each phase -/

section
variable {i : Instr} {s : State} (hop : i.op = .digest)
include hop

theorem exec_digest_of_faulted (h : phaseOf i.alg s = .faulted) :
    exec i s = .next (respond .invalidState .none s) := by
  have hc : digestCheck i.alg i.len s = some .engineFaulted := by simp [digestCheck, h]
  exact exec_of_raise ((commandCheck_of_digest hop s).trans hc)

theorem exec_digest_of_small (h : phaseOf i.alg s ≠ .faulted) (hl : i.len < 16) :
    exec i s = .next (respond .insufficientBuffer .none s) := by
  have hc : digestCheck i.alg i.len s = some .smallBuffer := by simp [digestCheck, digestLength, h, hl]
  exact exec_of_raise ((commandCheck_of_digest hop s).trans hc)

theorem exec_digest_of_finalized (h : phaseOf i.alg s = .finalized) (hl : 16 ≤ i.len) :
    exec i s = .next (respond .ok (.bytes (digestBytesOf i.alg s)) s) := by
  rw [exec_of_pass (commandCheck_digest_room hop hl (by simp [h]))]
  simp only [commandData, commandEffect, hop, h, ↓reduceIte]

theorem exec_digest_of_absorbing (h : phaseOf i.alg s = .absorbing) (hl : 16 ≤ i.len) :
    exec i s =
      .next (respond .ok (.bytes (unspecifiedBytes i.alg (drawsOf i.alg s))) (drawBytes i.alg s)) := by
  rw [exec_of_pass (commandCheck_digest_room hop hl (by simp [h]))]
  simp [commandData, commandEffect, hop, h]

end

/-! ### The commands of `E2` -/

theorem Md2Engine.digestBytes_getD (e : Md2Engine) {i : Nat} (h : i < 16) :
    e.digestBytes.getD i 0 = arrayRead e.transformBuffer i := by
  rw [List.getD_eq_getElem _ _ (by simpa using h)]
  simp [Md2Engine.digestBytes]

/-- Settles O13: what R85 writes are the reset values. -/
theorem resetMd2ClearsTheEngine : Obligations.ResetMd2ClearsTheEngine := execResetMd2_eq

/-- Settles O21, phase by phase. -/
theorem feedMd2InEveryPhase : Obligations.FeedMd2InEveryPhase :=
  fun p _ => ⟨exec_absorbs_of_faulted (i := .feedMd2 p) (.inl rfl),
    exec_absorbs_of_finalized (i := .feedMd2 p) (.inl rfl), exec_absorbs_of_overfull (i := .feedMd2 p) (.inl rfl),
    exec_absorbs_of_accepted (i := .feedMd2 p) (.inl rfl)⟩

/-- Settles O23, phase by phase; the block of the accepted command is the padded one. -/
theorem finalizeMd2InEveryPhase : Obligations.FinalizeMd2InEveryPhase := by
  refine fun s => ⟨exec_absorbs_of_faulted (i := .finalizeMd2) (.inr rfl),
    exec_absorbs_of_finalized (i := .finalizeMd2) (.inr rfl), exec_absorbs_of_overfull (i := .finalizeMd2) (.inr rfl),
    fun h hp => ⟨s.e2.pad.pendingBlock, fun i hi => ?_, ?_⟩⟩
  · rw [Md2Engine.arrayRead_pad]
    by_cases hpad : s.e2.pendingLength ≤ i
    · rw [if_pos ⟨hpad, hi⟩, if_neg (by omega)]
    · rw [if_neg (fun hin => hpad hin.1), if_pos (by omega)]
  · rw [← Md2Engine.finalize_eq]
    exact exec_absorbs_of_accepted (i := .finalizeMd2) (.inr rfl) h hp

/-- Settles O24, phase by phase. -/
theorem digestMd2InEveryPhase : Obligations.DigestMd2InEveryPhase :=
  fun cap s => ⟨exec_digest_of_faulted (i := .digestMd2 cap) rfl, exec_digest_of_small (i := .digestMd2 cap) rfl,
    fun h hl => ⟨s.e2.digestBytes, s.e2.digestBytes_length, fun _ => s.e2.digestBytes_getD,
      exec_digest_of_finalized (i := .digestMd2 cap) rfl h hl⟩,
    fun h hl => ⟨_, unspecifiedBytes_length .md2 s.draws2, exec_digest_of_absorbing (i := .digestMd2 cap) rfl h hl⟩⟩

/-- Settles O25. -/
theorem accessorsAnswerTheirConstants : Obligations.AccessorsAnswerTheirConstants :=
  fun s => ⟨execBlocksizeMd2_eq s, execDigestbitsMd2_eq s, execBlocksizeMd4_eq s, execDigestbitsMd4_eq s⟩

end Sys2Proof.Machine
end

section
/-! PROOFS. The digest of a message fed in chunks (41_md2_engine.md R91, 42_md4_engine.md R119). -/

namespace Sys2Proof.Machine

theorem commandResponse_reset (a : Algorithm) (s : State) :
    commandResponse (commandOf .reset a [] 0) s = ⟨.ok, .none⟩ := by
  cases a <;> rfl

theorem commandResponse_finalize_of_hasAbsorbed {a : Algorithm} {m : List Byte} {s : State}
    (h : (s.engine a).HasAbsorbed m) : commandResponse (commandOf .finalize a [] 0) s = ⟨.ok, .none⟩ := by
  have hc : commandCheck (commandOf .finalize a [] 0) s = none := by
    rw [commandCheck_of_absorbs (by simp), commandOf_alg, absorbCheck_of_hasAbsorbed h]
  rw [commandResponse_of_pass hc]
  simp only [commandData, commandOf_op]

/-- Chunks fed to an engine that has absorbed a message add their concatenation to it, each answered `OK`. -/
theorem hasAbsorbed_after_feeds {a : Algorithm} {m : List Byte} {s : State} (h : (s.engine a).HasAbsorbed m)
    (chunks : List (List Byte)) :
    ((runResult (chunks.map (feedCommand a)) s).engine a).HasAbsorbed (m ++ chunks.flatten) ∧
    (runResult (chunks.map (feedCommand a)) s).responses =
      s.responses ++ List.replicate chunks.length ⟨.ok, .none⟩ := by
  rw [runResult_feeds chunks (absorbCheck_of_hasAbsorbed h)]
  have hfed := hasAbsorbed_feedEngine h chunks.flatten
  exact ⟨by cases a <;> exact hfed, rfl⟩

/-- `RESET`, the chunks, `FINALIZE` and `DIGEST` with room, of either engine: `OK` throughout, and the digest. -/
theorem runCommands_digest_of_chunks (a : Algorithm) (chunks : List (List Byte)) {cap : Nat} (hcap : 16 ≤ cap)
    (s : State) :
    ∃ t, runCommands (commandOf .reset a [] 0 :: chunks.map (feedCommand a) ++
        [commandOf .finalize a [] 0, commandOf .digest a [] cap]) s = .next t ∧
      t.responses = s.responses ++ List.replicate (chunks.length + 2) ⟨.ok, .none⟩ ++
        [⟨.ok, .bytes (digestOf a chunks.flatten)⟩] := by
  obtain ⟨habsorbed, hresponses⟩ := hasAbsorbed_after_feeds (hasAbsorbed_after_reset a s) chunks
  have hdigest := holdsDigest_after_finalize habsorbed
  refine ⟨_, runCommands_eq_runResult _ s, ?_⟩
  rw [runResult_append, runResult_cons, runResult_cons, runResult_cons, runResult_nil, commandResult_responses,
    commandResult_responses, hresponses, commandResult_responses, commandResponse_reset,
    commandResponse_finalize_of_hasAbsorbed habsorbed, commandResponse_of_holdsDigest hcap hdigest,
    List.replicate_succ', List.replicate_succ]
  simp

/-- Settles O48: the computation of either engine, for `E2`. -/
theorem md2DigestOfTheMessage : Obligations.Md2DigestOfTheMessage :=
  fun chunks _ s hcap => runCommands_digest_of_chunks .md2 chunks hcap s

end Sys2Proof.Machine
end

section
/-! PROOFS. The round functions, the step tables and the micro-operations of the MD4 engine (42_md4_engine.md R101 to
R112). -/

namespace Sys2Proof.Machine

/-! ### The round functions (R101 to R103) -/

theorem md4F_getLsbD (x y z : Word) (i : Nat) :
    (md4F x y z).getLsbD i = if x.getLsbD i then y.getLsbD i else z.getLsbD i := by
  rw [md4F, BitVec.getLsbD_xor, BitVec.getLsbD_and, BitVec.getLsbD_xor]
  generalize x.getLsbD i = a, y.getLsbD i = b, z.getLsbD i = c
  revert a b c
  decide

theorem md4F_eq_select (x y z : Word) : md4F x y z = (x &&& y) ||| (~~~x &&& z) := by
  refine BitVec.eq_of_getLsbD_eq fun i hi => ?_
  rw [md4F_getLsbD, BitVec.getLsbD_or, BitVec.getLsbD_and, BitVec.getLsbD_and, BitVec.getLsbD_not]
  cases x.getLsbD i <;> simp [hi]

theorem md4G_getLsbD (x y z : Word) (i : Nat) :
    (md4G x y z).getLsbD i = decide (2 ≤ (x.getLsbD i).toNat + (y.getLsbD i).toNat + (z.getLsbD i).toNat) := by
  rw [md4G, BitVec.getLsbD_or, BitVec.getLsbD_and, BitVec.getLsbD_and, BitVec.getLsbD_or]
  generalize x.getLsbD i = a, y.getLsbD i = b, z.getLsbD i = c
  revert a b c
  decide

theorem md4G_eq_pairs (x y z : Word) : md4G x y z = (x &&& y) ||| (x &&& z) ||| (y &&& z) := by
  rw [md4G, BitVec.and_or_distrib_left, BitVec.and_comm z x, BitVec.and_comm z y, BitVec.or_assoc]

theorem md4H_getLsbD (x y z : Word) (i : Nat) :
    (md4H x y z).getLsbD i =
      decide (((x.getLsbD i).toNat + (y.getLsbD i).toNat + (z.getLsbD i).toNat) % 2 = 1) := by
  rw [md4H, BitVec.getLsbD_xor, BitVec.getLsbD_xor]
  generalize x.getLsbD i = a, y.getLsbD i = b, z.getLsbD i = c
  revert a b c
  decide

/-- Settles O26: the truth table of each function in one bit position, and the two other forms. -/
theorem roundFunctionsBitByBit : Obligations.RoundFunctionsBitByBit :=
  fun x y z => ⟨fun i _ => md4F_getLsbD x y z i, md4F_eq_select x y z, fun i _ => md4G_getLsbD x y z i,
    md4G_eq_pairs x y z, fun i _ => md4H_getLsbD x y z i⟩

/-! ### The steps (R106 to R109) -/

/-- Settles O27: the functions and constants by their definitions, the tables entry by entry. -/
theorem stepTablesFollowTheirFormulas : Obligations.StepTablesFollowTheirFormulas :=
  ⟨fun _ _ _ => ⟨rfl, rfl, rfl⟩, rfl, rfl, rfl, by decide⟩

theorem md4RoundOf_eq {n : Nat} (h : n < 48) : md4RoundOf n = if n < 16 then 1 else if n < 32 then 2 else 3 := by
  unfold md4RoundOf
  split_ifs <;> omega

theorem md4RoundFunction_of_step {n : Nat} (h : n < 48) (x y z : Word) :
    md4RoundFunction (md4RoundOf n) x y z =
      if n < 16 then md4F x y z else if n < 32 then md4G x y z else md4H x y z := by
  rw [md4RoundOf_eq h, apply_ite (md4RoundFunction · x y z), apply_ite (md4RoundFunction · x y z)]
  rfl

theorem md4Additive_of_step {n : Nat} (h : n < 48) :
    md4Additive (md4RoundOf n) = if n < 16 then 0 else if n < 32 then 0x5A827999 else 0x6ED9EBA1 := by
  rw [md4RoundOf_eq h, apply_ite md4Additive, apply_ite md4Additive]
  rfl

theorem md4Amount_lt : ∀ n < 48, md4Amount n < 32 := by decide

/-- Settles O28: `arrayRead_step4` with the round of the step spelt out. -/
theorem step4ReplacesOneWord : Obligations.Step4ReplacesOneWord := by
  intro xw v n hn ti hti
  obtain rfl : ti = md4Target n := hti
  refine ⟨?_, fun q _ hq => ?_⟩
  · rw [← md4RoundFunction_of_step hn, ← md4Additive_of_step hn, ← rol32_eq_rotateLeft _ (md4Amount_lt n hn),
      arrayRead_step4, if_pos rfl, step4Value]
  · rw [arrayRead_step4, if_neg hq.symm]

/-! ### `BLOCK4` (R105, R110) -/

/-- The working words before step `n`. -/
def md4WordsBefore (xw : Vector Word 16) (words : Vector Word 4) (n : Nat) : Vector Word 4 :=
  (List.range n).foldl (step4 xw) words

theorem md4WordsBefore_succ (xw : Vector Word 16) (words : Vector Word 4) (n : Nat) :
    md4WordsBefore xw words (n + 1) = step4 xw (md4WordsBefore xw words n) n := by
  rw [md4WordsBefore, List.range_succ, List.foldl_append]
  rfl

theorem md4Rounds_eq_md4WordsBefore (xw : Vector Word 16) (words : Vector Word 4) :
    md4Rounds xw words = md4WordsBefore xw words 48 := rfl

theorem arrayRead_md4Schedule (pb : Vector Byte 64) {k : Nat} (h : k < 16) :
    arrayRead (md4Schedule pb) k = loadWord pb k :=
  arrayRead_ofFn _ h

/-- Settles O29: the working words are those before each step, and `BLOCK4` adds those after the last. -/
theorem block4FollowsItsSteps : Obligations.Block4FollowsItsSteps := by
  refine fun e => ⟨⟨md4Schedule e.pendingBlock, md4WordsBefore (md4Schedule e.pendingBlock) e.words, fun k hk => ?_,
    rfl, fun n _ => md4WordsBefore_succ _ _ n, fun q hq => ?_⟩, rfl⟩
  · rw [arrayRead_md4Schedule _ hk, loadWord_toNat]
  · rw [Md4Engine.block_words, arrayRead_block4 _ _ q hq, md4Rounds_eq_md4WordsBefore]

/-! ### `PADABSORB4` and `ABSORB4` (R111, R112) -/

/-- Settles O31: within the block the byte is only stored; the sixty-fourth has the block processed. -/
theorem absorb4AndPadAbsorb4TakeOneByte : Obligations.Absorb4AndPadAbsorb4TakeOneByte := by
  refine fun e b h => ⟨fun hlt => e.padAbsorb_within b (by omega), fun hfull => ?_, e.absorb_eq_padAbsorb b, ?_⟩
  · rw [e.padAbsorb_full b (by omega), hfull]
  · have hpl := e.padAbsorb_pendingLength b (by omega)
    rw [Md4Engine.absorb_eq_padAbsorb]
    change (e.padAbsorb b).pendingLength ≤ 63
    omega

end Sys2Proof.Machine
end

section
/-! PROOFS. The padding of MD4 (42_md4_engine.md R115, R119) and the commands of the MD4 engine in every phase (R113 to
R116). -/

namespace Sys2Proof.Machine

/-! ### Lengths of padded messages -/

@[simp] theorem md4Padded_length (m : List Byte) : (md4Padded m).length = m.length + md4Zeros m.length + 9 := by
  rw [md4Padded, List.length_append, List.length_append, List.length_cons, List.length_replicate, lengthBytes_length]
  omega

@[simp] theorem md2Padded_length (m : List Byte) : (md2Padded m).length = m.length + (16 - m.length % 16) := by
  simp [md2Padded]

/-- Settles O51: `z` is below 64, and numbers with the same remainder modulo 64 lie at least 64 apart. -/
theorem paddedMessagesAreWholeBlocks : Obligations.PaddedMessagesAreWholeBlocks := by
  intro m
  rw [md4Padded_length, md2Padded_length, md4Zeros]
  exact ⟨by omega, fun z hz => by omega, by omega, by omega⟩

/-! ### The bytes of a padded block -/

theorem getD_replicate_zero_append (n : Nat) (l : List Byte) (i : Nat) :
    (List.replicate n 0x00 ++ l).getD i 0 = if i < n then 0x00 else l.getD (i - n) 0 := by
  by_cases h : i < n
  · rw [if_pos h, List.getD_append _ _ _ _ (by simpa using h), List.getD_replicate _ h]
  · rw [if_neg h, List.getD_append_right _ _ _ _ (by simpa using h), List.length_replicate]

/-- A block filled from the pending length on: the pending bytes, then the new ones. -/
theorem Md4Engine.arrayRead_blockWith {e : Md4Engine} {p : List Byte} (h : e.pendingLength + p.length = 64) {i : Nat}
    (hi : i < 64) :
    arrayRead (e.blockWith p) i =
      if i < e.pendingLength then arrayRead e.pendingBlock i else p.getD (i - e.pendingLength) 0 := by
  rw [Md4Engine.blockWith, arrayRead_arrayFill]
  by_cases hlt : i < e.pendingLength
  · rw [if_pos hlt, if_neg (by omega)]
  · rw [if_neg hlt, if_pos (by omega)]

/-- The `0x80` byte and `n` zero bytes end the pending bytes; what follows starts `n + 1` bytes on. -/
theorem Md4Engine.arrayRead_blockWith_padding {e : Md4Engine} {n : Nat} {l : List Byte}
    (h : e.pendingLength + (n + l.length + 1) = 64) {i : Nat} (hi : i < 64) :
    arrayRead (e.blockWith (0x80 :: (List.replicate n 0x00 ++ l))) i =
      if i < e.pendingLength then arrayRead e.pendingBlock i
      else if i = e.pendingLength then 0x80
      else if i < e.pendingLength + n + 1 then 0x00
      else l.getD (i - (e.pendingLength + n + 1)) 0 := by
  rw [Md4Engine.arrayRead_blockWith (by simpa using h) hi]
  by_cases hlt : i < e.pendingLength
  · rw [if_pos hlt, if_pos hlt]
  · rw [if_neg hlt, if_neg hlt]
    by_cases heq : i = e.pendingLength
    · rw [if_pos heq, heq, Nat.sub_self, List.getD_cons_zero]
    · obtain ⟨j, rfl⟩ : ∃ j, i = e.pendingLength + j + 1 := ⟨i - e.pendingLength - 1, by omega⟩
      rw [if_neg heq, show e.pendingLength + j + 1 - e.pendingLength = j + 1 by omega, List.getD_cons_succ,
        getD_replicate_zero_append, show e.pendingLength + j + 1 - (e.pendingLength + n + 1) = j - n by omega]
      by_cases hj : j < n
      · rw [if_pos hj, if_pos (by omega)]
      · rw [if_neg hj, if_neg (by omega)]

/-! ### The accepted `FINALIZE.MD4` (R115) -/

/-- The only block processed when the padding fits behind the pending bytes. -/
def Md4Engine.onlyPaddedBlock (e : Md4Engine) : Vector Byte 64 :=
  e.blockWith (0x80 :: (List.replicate (55 - e.pendingLength) 0x00 ++ lengthBytes e.totalBitLength))

/-- The first of two blocks: the pending bytes, `0x80` and zeros. -/
def Md4Engine.firstPaddedBlock (e : Md4Engine) : Vector Byte 64 :=
  e.blockWith (0x80 :: List.replicate (63 - e.pendingLength) 0x00)

/-- The second of two blocks: zeros and the length. -/
def md4LengthBlock (bits : DWord) : Vector Byte 64 :=
  messageBlock 64 (List.replicate 56 0x00 ++ lengthBytes bits) 0

theorem Md4Engine.arrayRead_onlyPaddedBlock {e : Md4Engine} (h : e.pendingLength ≤ 55) {i : Nat} (hi : i < 64) :
    arrayRead e.onlyPaddedBlock i =
      if i < e.pendingLength then arrayRead e.pendingBlock i
      else if i = e.pendingLength then 0x80
      else if i < 56 then 0x00
      else (lengthBytes e.totalBitLength).getD (i - 56) 0 := by
  rw [Md4Engine.onlyPaddedBlock, Md4Engine.arrayRead_blockWith_padding (by rw [lengthBytes_length]; omega) hi,
    show e.pendingLength + (55 - e.pendingLength) + 1 = 56 by omega]

theorem Md4Engine.arrayRead_firstPaddedBlock {e : Md4Engine} (h : e.pendingLength < 64) {i : Nat} (hi : i < 64) :
    arrayRead e.firstPaddedBlock i =
      if i < e.pendingLength then arrayRead e.pendingBlock i else if i = e.pendingLength then 0x80 else 0x00 := by
  rw [Md4Engine.firstPaddedBlock, ← List.append_nil (List.replicate _ _),
    Md4Engine.arrayRead_blockWith_padding (by rw [List.length_nil]; omega) hi,
    if_pos (show i < e.pendingLength + (63 - e.pendingLength) + 1 by omega)]

theorem arrayRead_md4LengthBlock (bits : DWord) {i : Nat} (hi : i < 64) :
    arrayRead (md4LengthBlock bits) i = if i < 56 then 0x00 else (lengthBytes bits).getD (i - 56) 0 := by
  rw [md4LengthBlock, arrayRead_messageBlock _ _ _ hi, Nat.mul_zero, Nat.zero_add, getD_replicate_zero_append]

/-- Sixty-four bytes laid into an empty input buffer are all that stands in it. -/
theorem Md4Engine.blockWith_of_empty {e : Md4Engine} (h : e.pendingLength = 0) {p : List Byte} (hp : p.length = 64) :
    e.blockWith p = messageBlock 64 p 0 := by
  refine array_ext fun i hi => ?_
  rw [Md4Engine.arrayRead_blockWith (by omega) hi, arrayRead_messageBlock _ _ _ hi, if_neg (by omega), h, Nat.mul_zero,
    Nat.zero_add, Nat.sub_zero]

theorem md4Padding_of_one_block {p : Nat} (h : p ≤ 55) (bits : DWord) :
    md4Padding p bits = 0x80 :: (List.replicate (55 - p) 0x00 ++ lengthBytes bits) := by
  rw [md4Padding, show (119 - p) % 64 = 55 - p by omega, List.cons_append]

theorem md4Padding_of_two_blocks {p : Nat} (h : 56 ≤ p) (hp : p < 64) (bits : DWord) :
    md4Padding p bits =
      0x80 :: List.replicate (63 - p) 0x00 ++ (List.replicate 56 0x00 ++ lengthBytes bits) := by
  rw [md4Padding, show (119 - p) % 64 = 63 - p + 56 by omega, List.replicate_add, List.cons_append, List.cons_append,
    List.append_assoc]

theorem Md4Engine.finalize_of_one_block {e : Md4Engine} (h : e.pendingLength ≤ 55) :
    e.finalize =
      { words := block4 e.words e.onlyPaddedBlock
        pendingBlock := e.onlyPaddedBlock
        pendingLength := 0
        totalBitLength := e.totalBitLength
        phase := .finalized } := by
  rw [e.finalize_eq (by omega), md4Padding_of_one_block h, Md4Engine.padAbsorbAll_fill e _ ?_ (List.cons_ne_nil _ _),
    ← Md4Engine.onlyPaddedBlock]
  rw [List.length_cons, List.length_append, List.length_replicate, lengthBytes_length]
  omega

theorem Md4Engine.finalize_of_two_blocks {e : Md4Engine} (h : 56 ≤ e.pendingLength) (hp : e.pendingLength < 64) :
    e.finalize =
      { words := block4 (block4 e.words e.firstPaddedBlock) (md4LengthBlock e.totalBitLength)
        pendingBlock := md4LengthBlock e.totalBitLength
        pendingLength := 0
        totalBitLength := e.totalBitLength
        phase := .finalized } := by
  have hfirst : e.pendingLength + ((0x80 : Byte) :: List.replicate (63 - e.pendingLength) 0x00).length = 64 := by
    rw [List.length_cons, List.length_replicate]
    omega
  have hsecond : (List.replicate 56 (0x00 : Byte) ++ lengthBytes e.totalBitLength).length = 64 := by simp
  rw [e.finalize_eq hp, md4Padding_of_two_blocks h hp, Md4Engine.padAbsorbAll_append,
    Md4Engine.padAbsorbAll_fill e _ hfirst (List.cons_ne_nil _ _),
    Md4Engine.padAbsorbAll_fill _ _ ((Nat.zero_add _).trans hsecond) (List.ne_nil_of_length_eq_add_one hsecond),
    Md4Engine.blockWith_of_empty rfl hsecond, ← Md4Engine.firstPaddedBlock, ← md4LengthBlock]

/-! ### The commands of `E4` -/

/-- Settles O14: what R113 writes are the reset values. -/
theorem resetMd4ClearsTheEngine : Obligations.ResetMd4ClearsTheEngine := execResetMd4_eq

/-- Settles O32, phase by phase. -/
theorem feedMd4InEveryPhase : Obligations.FeedMd4InEveryPhase :=
  fun p _ => ⟨exec_absorbs_of_faulted (i := .feedMd4 p) (.inl rfl),
    exec_absorbs_of_finalized (i := .feedMd4 p) (.inl rfl), exec_absorbs_of_overfull (i := .feedMd4 p) (.inl rfl),
    exec_absorbs_of_accepted (i := .feedMd4 p) (.inl rfl)⟩

/-- Settles O34, phase by phase; the accepted command processes one padded block or two, as the pending length has
it. -/
theorem finalizeMd4InEveryPhase : Obligations.FinalizeMd4InEveryPhase := by
  refine fun s => ⟨exec_absorbs_of_faulted (i := .finalizeMd4) (.inr rfl),
    exec_absorbs_of_finalized (i := .finalizeMd4) (.inr rfl), exec_absorbs_of_overfull (i := .finalizeMd4) (.inr rfl),
    fun h hp => ⟨s.e4.onlyPaddedBlock, fun _ => Md4Engine.arrayRead_onlyPaddedBlock hp, ?_⟩,
    fun h hp hp' => ⟨s.e4.firstPaddedBlock, md4LengthBlock s.e4.totalBitLength,
      fun _ => Md4Engine.arrayRead_firstPaddedBlock hp', fun _ => arrayRead_md4LengthBlock _, ?_⟩⟩
  · rw [← Md4Engine.finalize_of_one_block hp]
    exact exec_absorbs_of_accepted (i := .finalizeMd4) (.inr rfl) h (Nat.lt_of_le_of_lt hp (by decide))
  · rw [← Md4Engine.finalize_of_two_blocks hp hp']
    exact exec_absorbs_of_accepted (i := .finalizeMd4) (.inr rfl) h hp'

/-- Settles O35, phase by phase. -/
theorem digestMd4InEveryPhase : Obligations.DigestMd4InEveryPhase :=
  fun cap s => ⟨exec_digest_of_faulted (i := .digestMd4 cap) rfl, exec_digest_of_small (i := .digestMd4 cap) rfl,
    fun h hl => ⟨s.e4.digestBytes, s.e4.digestBytes_length, fun _ hq _ hb => wordsBytes_getD s.e4.words hq hb,
      exec_digest_of_finalized (i := .digestMd4 cap) rfl h hl⟩,
    fun h hl => ⟨_, unspecifiedBytes_length .md4 s.draws4, exec_digest_of_absorbing (i := .digestMd4 cap) rfl h hl⟩⟩

/-- Settles O49: the computation of either engine, for `E4`. -/
theorem md4DigestOfTheMessage : Obligations.Md4DigestOfTheMessage :=
  fun chunks _ s hcap => runCommands_digest_of_chunks .md4 chunks hcap s

end Sys2Proof.Machine
end

section
/-! PROOFS. The errors of 60_exceptions.md: illegal command words (R129), a failed `DIGEST` and its retry (R126), and
the `FAULTED` phase until `RESET` (R127). -/

namespace Sys2Proof

/-! ### Illegal words (30_encoding.md R51) -/

/-- The operations without a number in their word, by their own numbers. -/
theorem Op.takesNoLen_of_number {op : Op} (h : op.number ∈ [0, 2, 4, 5]) : op.takesNoLen = true := by
  cases op with
  | feed | digest => simp [Op.number] at h
  | _ => rfl

/-- The decoder answers a word of each illegal kind as such, whatever payload stands behind it. -/
theorem decode_of_illegal {w : Word} (h : 5 < opField w ∨ 1 < algField w ∨ rsvField w ≠ 0 ∨
    (opField w ∈ [0, 2, 4, 5] ∧ lenField w ≠ 0)) (stream : List Byte) :
    ∃ r, r ≠ .payloadIncomplete ∧ decode w stream = .error r := by
  rcases decode_cases w stream with ⟨op, a, ho, ha, hr, hl, -⟩ | ⟨-, hd⟩ | ⟨-, -, hd⟩ | ⟨-, -, -, hd⟩ |
    ⟨op, -, -, -, -, -, hd⟩
  · have hop := op.number_lt
    have hal := a.number_lt
    rcases h with h | h | h | ⟨hno, hlen⟩
    · omega
    · omega
    · exact absurd hr h
    · exact absurd (hl (Op.takesNoLen_of_number (ho ▸ hno))) hlen
  all_goals exact ⟨_, by decide, hd⟩

end Sys2Proof

namespace Sys2Proof.Machine

theorem step_of_illegal {s : State} {w : Word} {ws : List Word} {r : Reject} (h : s.commandWords = w :: ws)
    (hr : r ≠ .payloadIncomplete) (hd : decode w s.payloadStream = .error r) :
    step s = .next (respond .illegalCommand .none { s with commandWords := ws }) := by
  rcases step_cases s with ⟨hw, -⟩ | ⟨w', ws', hw, hstep⟩
  · cases h.symm.trans hw
  · cases h.symm.trans hw
    rcases hstep with ⟨hd', -⟩ | ⟨-, -, -, hc⟩ | ⟨i, rest, hd', -⟩
    · cases hd.symm.trans hd'
      exact absurd rfl hr
    · exact hc
    · cases hd.symm.trans hd'

/-- Settles O8: the decoder answers all four kinds as illegal, and a step gives each the same response. -/
theorem illegalWordsAnswerIllegalCommand : Obligations.IllegalWordsAnswerIllegalCommand := by
  intro s w ws hw hill
  obtain ⟨r, hr, hd⟩ := decode_of_illegal hill s.payloadStream
  exact ⟨step_of_illegal hw hr hd, rfl⟩

/-! ### A failed `DIGEST` (R126) -/

/-- Settles O38: the failed command only responds, so the engine is still finalized when the retry comes. -/
theorem failedDigestIsRetryable : Obligations.FailedDigestIsRetryable :=
  ⟨rfl, fun _ cap cap' hsmall hroom =>
    ⟨fun h => ⟨_, exec_digest_of_small (i := .digestMd2 cap) rfl h hsmall, rfl,
      fun hf => exec_digest_of_finalized (i := .digestMd2 cap') rfl hf hroom⟩,
    fun h => ⟨_, exec_digest_of_small (i := .digestMd4 cap) rfl h hsmall, rfl,
      fun hf => exec_digest_of_finalized (i := .digestMd4 cap') rfl hf hroom⟩⟩⟩

/-! ### The phase `FAULTED` (R127) -/

/-- R127 (a) and (b): a command that absorbs, at a pending length out of range. -/
theorem exec_of_overfull {a : Algorithm} {i : Instr} {s : State}
    (hi : i ∈ [commandOf .finalize a [] 0] ∨ ∃ p, i = feedCommand a p) (h : phaseOf a s = .absorbing)
    (hp : blockSize a ≤ pendingLengthOf a s) :
    exec i s = .next (respond .invalidState .none (setPhase a .faulted s)) := by
  obtain ⟨hop, rfl⟩ : (i.op = .feed ∨ i.op = .finalize) ∧ i.alg = a := by
    rcases hi with hi | ⟨p, rfl⟩
    · simp [List.mem_singleton.mp hi]
    · simp [feedCommand]
  exact exec_absorbs_of_overfull hop h hp

/-- R127 (c): the commands that find their engine faulted. -/
theorem exec_of_faulted {i : Instr} {s : State} (hop : i.op = .finalize ∨ i.op = .feed ∨ i.op = .digest)
    (h : phaseOf i.alg s = .faulted) : exec i s = .next (respond .invalidState .none s) := by
  rcases hop with hop | hop | hop
  · exact exec_absorbs_of_faulted (.inr hop) h
  · exact exec_absorbs_of_faulted (.inl hop) h
  · exact exec_digest_of_faulted hop h

/-- Settles O39: any state with this engine has it faulted, and `RESET` does not look at the phase. -/
theorem faultedMd2IsStickyUntilReset : Obligations.FaultedMd2IsStickyUntilReset := by
  refine fun s i hi h hp => ⟨_, exec_of_overfull (a := .md2) hi h hp, rfl, fun u hu => ?_⟩
  have hf : u.e2.phase = .faulted := congrArg Md2Engine.phase hu
  exact ⟨exec_of_faulted (i := .finalizeMd2) (.inl rfl) hf,
    fun p => exec_of_faulted (i := .feedMd2 p) (.inr (.inl rfl)) hf,
    fun cap => exec_of_faulted (i := .digestMd2 cap) (.inr (.inr rfl)) hf, _, execResetMd2_eq u, rfl⟩

/-- Settles O40, as for `E2`. -/
theorem faultedMd4IsStickyUntilReset : Obligations.FaultedMd4IsStickyUntilReset := by
  refine fun s i hi h hp => ⟨_, exec_of_overfull (a := .md4) hi h hp, rfl, fun u hu => ?_⟩
  have hf : u.e4.phase = .faulted := congrArg Md4Engine.phase hu
  exact ⟨exec_of_faulted (i := .finalizeMd4) (.inl rfl) hf,
    fun p => exec_of_faulted (i := .feedMd4 p) (.inr (.inl rfl)) hf,
    fun cap => exec_of_faulted (i := .digestMd4 cap) (.inr (.inr rfl)) hf, _, execResetMd4_eq u, rfl⟩

end Sys2Proof.Machine
end

section
/-! PROOFS. Reset, the completion of every command and step, and the host that keeps its obligations
(70_reset_and_hazards.md R145, R146, R149 to R156). -/

namespace Sys2Proof.Machine

/-! ### Reset (R145, R146) -/

/-- Settles O12: the storage spaces are filled with zeros, and every other piece of state stands in R29's table. -/
theorem powerOnResetState : Obligations.PowerOnResetState :=
  ⟨fun i _ => arrayRead_replicate_zero i, fun i _ => arrayRead_replicate_zero i, fun i _ => arrayRead_replicate_zero i,
    rfl, rfl, rfl, rfl, rfl, rfl, fun i _ => arrayRead_replicate_zero i, rfl, rfl, rfl⟩

/-- Settles O15: either command puts the reset engine in the place of its own. -/
theorem resetCommandEqualsPowerOnReset : Obligations.ResetCommandEqualsPowerOnReset :=
  fun s => ⟨⟨_, execResetMd2_eq s, rfl, rfl⟩, ⟨_, execResetMd4_eq s, rfl, rfl⟩⟩

/-! ### Every command and every step completes (R156) -/

@[simp] theorem withPort_commandWords (ws : List Word) (ps : List Byte) (s : State) :
    (s.withPort ws ps).commandWords = ws := rfl

@[simp] theorem withPort_payloadStream (ws : List Word) (ps : List Byte) (s : State) :
    (s.withPort ws ps).payloadStream = ps := rfl

/-- A command writes nothing to the port, not even what was there before. -/
theorem commandResult_withPort_same (i : Instr) (s : State) :
    commandResult i s = (commandResult i s).withPort s.commandWords s.payloadStream :=
  commandResult_withPort i s.commandWords s.payloadStream s

@[simp] theorem commandResult_commandWords (i : Instr) (s : State) :
    (commandResult i s).commandWords = s.commandWords := by
  rw [commandResult_withPort_same, withPort_commandWords]

@[simp] theorem commandResult_payloadStream (i : Instr) (s : State) :
    (commandResult i s).payloadStream = s.payloadStream := by
  rw [commandResult_withPort_same, withPort_payloadStream]

/-- Whatever stands on the port, the machine does not stop. -/
theorem step_completes (s : State) : ∃ t, step s = .next t := by
  rcases step_cases s with ⟨-, hc⟩ | ⟨w, ws, -, ⟨-, hc⟩ | ⟨r, -, -, hc⟩ | ⟨i, rest, -, hc⟩⟩
  · exact ⟨_, hc⟩
  · exact ⟨_, hc⟩
  · exact ⟨_, hc⟩
  · exact ⟨_, hc.trans (exec_eq_commandResult i _)⟩

/-- Settles O10: a command ends in the state of its check, effect and answer, and does not touch the port. -/
theorem everyCommandAndStepCompletes : Obligations.EveryCommandAndStepCompletes :=
  ⟨fun i s => ⟨commandResult i s, exec_eq_commandResult i s, commandResponse i s, commandResult_responses i s,
    commandResult_commandWords i s, commandResult_payloadStream i s⟩, step_completes⟩

/-! ### The host's obligations, operation by operation (R149 to R151, R154) -/

theorem hostMay_iff {p : Phase} {i : Instr} :
    hostMay p i = true ↔
      (i.op = .feed ∨ i.op = .finalize → p = .absorbing) ∧ (i.op = .digest → p = .finalized ∧ 16 ≤ i.len) := by
  cases i <;> simp [hostMay, Instr.op, Instr.len]

/-- The host may issue the first command, and goes on properly from any state in which the command's engine is in the
phase it counts on and the other engine is in the phase it was in. -/
theorem hostMay_and_hostProper_of_cons {i : Instr} {is : List Instr} {s : State}
    (h : hostProper (phaseOf .md2 s) (phaseOf .md4 s) (i :: is) = true) :
    hostMay (phaseOf i.alg s) i = true ∧
      ∀ t, phaseOf i.alg t = hostPhase (phaseOf i.alg s) i.op → (∀ b ≠ i.alg, phaseOf b t = phaseOf b s) →
        hostProper (phaseOf .md2 t) (phaseOf .md4 t) is = true := by
  cases ha : i.alg with
  | md2 =>
    simp only [hostProper, ha, Bool.and_eq_true] at h
    obtain ⟨hmay, hrest⟩ := h
    exact ⟨hmay, fun t hown hother => by rwa [hown, hother .md4 (by decide)]⟩
  | md4 =>
    simp only [hostProper, ha, Bool.and_eq_true] at h
    obtain ⟨hmay, hrest⟩ := h
    exact ⟨hmay, fun t hown hother => by rwa [hown, hother .md2 (by decide)]⟩

/-! ### The counters of unspecified bytes (log 5) -/

@[simp] theorem respond_drawsOf (st : Status) (d : ResponseData) (a : Algorithm) (s : State) :
    drawsOf a (respond st d s) = drawsOf a s := by
  cases a <;> rfl

@[simp] theorem resetEngine_drawsOf (a b : Algorithm) (s : State) : drawsOf b (resetEngine a s) = drawsOf b s := by
  cases a <;> cases b <;> rfl

@[simp] theorem feedEngine_drawsOf (a b : Algorithm) (p : List Byte) (s : State) :
    drawsOf b (feedEngine a p s) = drawsOf b s := by
  cases a <;> cases b <;> rfl

@[simp] theorem finalizeEngine_drawsOf (a b : Algorithm) (s : State) :
    drawsOf b (finalizeEngine a s) = drawsOf b s := by
  cases a <;> cases b <;> rfl

/-- Only a `DIGEST` before `FINALIZE` draws unspecified bytes. -/
theorem commandEffect_drawsOf {i : Instr} {s : State} (h : i.op = .digest → phaseOf i.alg s = .finalized)
    (b : Algorithm) : drawsOf b (commandEffect i s) = drawsOf b s := by
  cases hop : i.op with
  | digest => simp [commandEffect, hop, h hop]
  | _ => simp [commandEffect, hop]

/-! ### One command of a proper host -/

theorem State.Inv.pendingLengthOf_lt {s : State} (h : s.Inv) (a : Algorithm) : pendingLengthOf a s < blockSize a := by
  cases a with
  | md2 => exact Nat.lt_succ_of_le h.pending2
  | md4 => exact Nat.lt_succ_of_le h.pending4

theorem commandResult_keeps_inv {s : State} (h : s.Inv) (i : Instr) : (commandResult i s).Inv :=
  exec_keeps_inv h (exec_eq_commandResult i s)

section
variable {i : Instr} {s : State} (hinv : s.Inv) (hmay : hostMay (phaseOf i.alg s) i = true)
include hinv hmay

/-- Under the invariants, what the host may issue passes its check. -/
theorem commandCheck_of_hostMay : commandCheck i s = none := by
  obtain ⟨habs, hdig⟩ := hostMay_iff.mp hmay
  cases hop : i.op with
  | feed | finalize =>
    rw [commandCheck_of_absorbs (by simp [hop])]
    exact (absorbCheck_eq_none_iff i.alg s).mpr ⟨habs (by simp [hop]), hinv.pendingLengthOf_lt i.alg⟩
  | digest =>
    obtain ⟨hph, hl⟩ := hdig hop
    exact commandCheck_digest_room hop hl (by simp [hph])
  | reset | blocksize | digestbits => simp only [commandCheck, hop]

theorem commandResponse_status_of_hostMay : (commandResponse i s).status = .ok := by
  rw [commandResponse_of_pass (commandCheck_of_hostMay hinv hmay)]

theorem commandResult_drawsOf_of_hostMay (b : Algorithm) : drawsOf b (commandResult i s) = drawsOf b s := by
  rw [commandResult_of_pass (commandCheck_of_hostMay hinv hmay), respond_drawsOf]
  obtain ⟨-, hdig⟩ := hostMay_iff.mp hmay
  exact commandEffect_drawsOf (fun hop => (hdig hop).1) b

/-- The host counts on the right phase. -/
theorem commandResult_phaseOf_of_hostMay :
    phaseOf i.alg (commandResult i s) = hostPhase (phaseOf i.alg s) i.op := by
  rw [commandResult_of_pass (commandCheck_of_hostMay hinv hmay), respond_phaseOf, commandEffect_phaseOf]
  cases i.op <;> rfl

end

/-! ### A sequence of commands of a proper host -/

/-- A run of a proper host: `OK` throughout, no unspecified byte drawn, the invariants kept. -/
theorem runResult_of_hostProper {is : List Instr} {s : State} (hinv : s.Inv)
    (h : hostProper (phaseOf .md2 s) (phaseOf .md4 s) is = true) :
    ∃ rs, (runResult is s).responses = s.responses ++ rs ∧ rs.length = is.length ∧ (∀ r ∈ rs, r.status = .ok) ∧
      (∀ a, drawsOf a (runResult is s) = drawsOf a s) ∧ (runResult is s).Inv := by
  induction is generalizing s with
  | nil => exact ⟨[], by simp, rfl, by simp, fun _ => rfl, hinv⟩
  | cons i is ih =>
    obtain ⟨hmay, hnext⟩ := hostMay_and_hostProper_of_cons h
    have hrest := hnext (commandResult i s) (commandResult_phaseOf_of_hostMay hinv hmay) fun b hb =>
      phaseOf_congr (commandResult_view_of_ne hb s)
    obtain ⟨rs, hresp, hlen, hok, hdraws, hinv'⟩ := ih (commandResult_keeps_inv hinv i) hrest
    have hfirst := commandResponse_status_of_hostMay hinv hmay
    exact ⟨commandResponse i s :: rs, by simp [hresp], by simp [hlen], List.forall_mem_cons.mpr ⟨hfirst, hok⟩,
      fun a => (hdraws a).trans (commandResult_drawsOf_of_hostMay hinv hmay a), hinv'⟩

/-- Settles O52, by induction on the commands: each passes its check and leaves the phases the host counts on. -/
theorem properHostsGetOkThroughout : Obligations.ProperHostsGetOkThroughout := by
  intro is s hinv h
  obtain ⟨rs, hresp, hlen, hok, hdraws, hinv'⟩ := runResult_of_hostProper hinv h
  exact ⟨_, rs, runCommands_eq_runResult is s, hresp, hlen, hok, hdraws .md2, hdraws .md4, hinv'⟩

end Sys2Proof.Machine
end
